-- ==== Sys2Proof/Word.lean ====
section
/-! DEFINITION. The word types of the machine: bytes (R50), the operand widths of the six forms (R20) and the
64-bit registers they live in. -/

namespace Sys2Proof

/-- A byte of memory or of the program text (R50). -/
abbrev Byte := BitVec 8
/-- A 16-bit register view (R22). -/
abbrev Word16 := BitVec 16
/-- A 32-bit register view, and every CRC value (R157). -/
abbrev Word32 := BitVec 32
/-- A general register, the instruction pointer, a linear or effective address (R20, R25, R51). -/
abbrev Word64 := BitVec 64

end Sys2Proof
end

