-- ==== Sys2Proof/Machine/Crc32Fn.lean ====
section
/-! DEFINITION. The function every form computes (40_crc32_function.md R130 to R133), as the source's pseudocode has it. -/

namespace Sys2Proof.Machine

/-- `BIT_REFLECT_N(v)`: bit `i` of the result is bit `N-1-i` of `v` (R130). -/
def bitReflect {n : Nat} (v : BitVec n) : BitVec n := v.reverse

/-- The polynomial `11EDC6F41H` (R131). -/
def polynomial : Nat := 0x11EDC6F41

/-- The loop of `MOD2`: while `a` is not 0 and its top bit is not below the top bit of `p`, xor `p` shifted under the
top bit of `a` (R132). The first argument bounds the number of rounds; each round lowers the top bit of `a`. -/
def mod2Loop (p : Nat) : Nat → Nat → Nat
  | 0, a => a
  | rounds + 1, a => if a ≠ 0 ∧ p.log2 ≤ a.log2 then mod2Loop p rounds (a ^^^ p <<< (a.log2 - p.log2)) else a

/-- `a mod2 p`, the remainder of polynomial division over the two-element field (R132). -/
def mod2 (a p : Nat) : Nat := mod2Loop p (a.log2 + 1) a

/-- `Crc32Acc(n, d, s)` with the temporaries of the source (R133). -/
def crc32Acc (n : Nat) (d : Word32) (s : BitVec n) : Word32 :=
  let temp1 : BitVec n := bitReflect s
  let temp2 : Word32 := bitReflect d
  let temp3 : BitVec (n + 32) := temp1.setWidth (n + 32) <<< 32
  let temp4 : BitVec (n + 32) := temp2.setWidth (n + 32) <<< n
  let temp5 : BitVec (n + 32) := temp3 ^^^ temp4
  let temp6 : Word32 := BitVec.ofNat 32 (mod2 temp5.toNat polynomial)
  bitReflect temp6

end Sys2Proof.Machine
end

