-- ==== Sys2Proof/Config.lean ====
section
/-! DEFINITION. What a run holds constant (00_scope.md R8): the operating mode, the code segment's default size, the
width of linear addresses, and the spec's OPEN parameter `Translate`, held as plain data. The values themselves stand
in State, since the host gives them with the launch state (R211). The spec leaves no instruction result undefined, so
no free value is declared. -/

namespace Sys2Proof

/-- The five operating modes the source names (R3, R8). -/
inductive Mode where
  | mode64   -- 64-bit mode
  | compat   -- compatibility mode
  | prot     -- protected mode
  | real     -- real-address mode
  | v86      -- virtual-8086 mode
  deriving DecidableEq, Repr

/-- `CS_D`, the default size of the code segment in compatibility and protected mode (R8, R84, R93). -/
inductive CodeSize where
  | d16
  | d32
  deriving DecidableEq, Repr

/-- What the decoder may look at besides the bytes: "It uses `MODE` and `CS_D` only" (R103). -/
structure CodeContext where
  mode : Mode
  csD : CodeSize
  deriving DecidableEq, Repr

/-- The significant width of linear addresses in 64-bit mode, `VA_BITS` (R8, R60, D8). -/
inductive VaBits where
  | va48
  | va57
  deriving DecidableEq, Repr

/-- Why a page fault arises, as far as the fault code of a data read tells it (R178): `protection` is bit 0 (the page
was present), `reserved` is bit 3 (a reserved bit was set in a paging structure). Bits 1 and 4 are always 0 for the
read of `CRC32`, and bit 2 follows from `CPL`, so a cause holds neither. -/
structure PageFaultCause where
  protection : Bool
  reserved : Bool
  deriving DecidableEq, Repr

/-- Where a range of linear addresses leads (R62): to consecutive physical addresses, or to a page fault. -/
inductive PageTarget where
  | phys (base : Nat)
  | pageFault (cause : PageFaultCause)
  deriving DecidableEq, Repr

/-- One entry of a `Translate` table: the linear addresses `first` to `last`, asked at privilege `cpl`. Any function
from linear addresses and privilege levels is a list of such entries (log entry 6). -/
structure PageMap where
  first : Nat
  last : Nat
  cpl : BitVec 2
  target : PageTarget
  deriving DecidableEq, Repr

/-- The OPEN parameter `Translate` (R62, D9) as plain data (log entry 6). -/
inductive Paging where
  /-- The spec's default: identity on the addresses of the launch data memory, not-present elsewhere. -/
  | admitted
  /-- Paging disabled: the identity, which never faults (R62). -/
  | identity
  /-- Page tables of the host: the first entry that holds the address and the privilege level decides; an address in
  no entry is not present. -/
  | table (entries : List PageMap)
  deriving DecidableEq, Repr

end Sys2Proof
end

