-- ==== Sys2Proof/Syntax.lean ====
section
/-! DEFINITION. The instruction set: `CRC32` in the eight rows of spec/opcode_table.json (R80, R108), with its operands
as 30_encoding.md gives them. Register numbers and field codes are names here; the decoder alone sees bits. -/

namespace Sys2Proof

/-- The general registers by their 64-bit names, in the order of their numbers 0 to 15 (R21). -/
inductive Reg where
  | rax | rcx | rdx | rbx | rsp | rbp | rsi | rdi
  | r8 | r9 | r10 | r11 | r12 | r13 | r14 | r15
  deriving DecidableEq, Repr

/-- The six segment registers (R31). -/
inductive Seg where
  | es | cs | ss | ds | fs | gs
  deriving DecidableEq, Repr

/-- The address size of a memory operand (R93). -/
inductive AddrSize where
  | a16 | a32 | a64
  deriving DecidableEq, Repr

/-- The scale factor 1, 2, 4 or 8 of an index register (R90). -/
inductive Scale where
  | x1 | x2 | x4 | x8
  deriving DecidableEq, Repr

/-- The index term of a SIB byte (R90). -/
structure Index where
  reg : Reg
  scale : Scale
  deriving DecidableEq, Repr

/-- The displacement of a 32- or 64-bit address form: `mod` = 00, 01, 10 (R89). -/
inductive Disp where
  | absent
  | d8 (v : Byte)
  | d32 (v : Word32)
  deriving DecidableEq, Repr

/-- The displacement of a 16-bit address form (R96). -/
inductive Disp16 where
  | absent
  | d8 (v : Byte)
  | d16 (v : Word16)
  deriving DecidableEq, Repr

/-- The eight register terms of 16-bit addressing, `rm` = 0 to 7 (R96). -/
inductive Base16 where
  | bxSi | bxDi | bpSi | bpDi | si | di | bp | bx
  deriving DecidableEq, Repr

/-- The address forms of a memory operand: R89, R90, R92, R95 (the first five) and R96 (the last two). -/
inductive AddrForm where
  /-- A base register without a SIB byte. -/
  | base (b : Reg) (d : Disp)
  /-- A SIB byte with a base register and perhaps an index. -/
  | sib (b : Reg) (x : Option Index) (d : Disp)
  /-- A SIB byte without a base register: `mod` = 00, `SIB.base` = 101. -/
  | sibNoBase (x : Option Index) (d : Word32)
  /-- `mod` = 00, `rm` = 101 in 64-bit mode: relative to the next instruction (R92). -/
  | ripRelative (d : Word32)
  /-- `mod` = 00, `rm` = 101 in the other modes: the displacement alone (R95). -/
  | absolute (d : Word32)
  /-- 16-bit addressing by registers. -/
  | base16 (b : Base16) (d : Disp16)
  /-- 16-bit addressing, `mod` = 00, `rm` = 110: the displacement alone. -/
  | absolute16 (d : Word16)
  deriving DecidableEq, Repr

/-- A memory operand: its address size, the segment override if one stands among the prefix bytes (R94), its form. -/
structure MemOperand where
  asize : AddrSize
  override : Option Seg
  form : AddrForm
  deriving DecidableEq, Repr

/-- Operand 2, `ModRM:r/m` (R86): a register, by its number's 64-bit name whatever view the form reads, or memory. -/
inductive Source where
  | reg (i : Reg)
  | mem (m : MemOperand)
  deriving DecidableEq, Repr

/-- The rows of the opcode table (R80, R108). -/
inductive Form where
  | r32rm8 | r32rm8Rex | r32rm16 | r32rm32 | r64rm8 | r64rm64 | r32rm16Rex | r32rm32Rex
  deriving DecidableEq, Repr

/-- A decoded `CRC32`, one constructor per row of spec/opcode_table.json: whether a LOCK prefix stands (R97), the
destination `ModRM:reg` (R87), the source `ModRM:r/m` (R88, R89). -/
inductive Instr where
  /-- `F2 0F 38 F0 /r`, R150. -/
  | crc32R32Rm8 (lock : Bool) (dst : Reg) (src : Source)
  /-- `F2 REX 0F 38 F0 /r`, R151. -/
  | crc32R32Rm8Rex (lock : Bool) (dst : Reg) (src : Source)
  /-- `F2 0F 38 F1 /r`, operand size 16, R152. -/
  | crc32R32Rm16 (lock : Bool) (dst : Reg) (src : Source)
  /-- `F2 0F 38 F1 /r`, operand size 32, R153. -/
  | crc32R32Rm32 (lock : Bool) (dst : Reg) (src : Source)
  /-- `F2 REX.W 0F 38 F0 /r`, R154. -/
  | crc32R64Rm8 (lock : Bool) (dst : Reg) (src : Source)
  /-- `F2 REX.W 0F 38 F1 /r`, R155. -/
  | crc32R64Rm64 (lock : Bool) (dst : Reg) (src : Source)
  /-- `F2 REX 0F 38 F1 /r`, operand size 16 (R82, R152). -/
  | crc32R32Rm16Rex (lock : Bool) (dst : Reg) (src : Source)
  /-- `F2 REX 0F 38 F1 /r`, operand size 32 (R82, R153). -/
  | crc32R32Rm32Rex (lock : Bool) (dst : Reg) (src : Source)
  deriving DecidableEq, Repr

/-- The row an instruction belongs to. -/
def Instr.form : Instr → Form
  | .crc32R32Rm8 _ _ _ => .r32rm8
  | .crc32R32Rm8Rex _ _ _ => .r32rm8Rex
  | .crc32R32Rm16 _ _ _ => .r32rm16
  | .crc32R32Rm32 _ _ _ => .r32rm32
  | .crc32R64Rm8 _ _ _ => .r64rm8
  | .crc32R64Rm64 _ _ _ => .r64rm64
  | .crc32R32Rm16Rex _ _ _ => .r32rm16Rex
  | .crc32R32Rm32Rex _ _ _ => .r32rm32Rex

/-- Does a LOCK prefix stand among the prefix bytes (R97)? -/
def Instr.lock : Instr → Bool
  | .crc32R32Rm8 k _ _ | .crc32R32Rm8Rex k _ _ | .crc32R32Rm16 k _ _ | .crc32R32Rm32 k _ _
  | .crc32R64Rm8 k _ _ | .crc32R64Rm64 k _ _ | .crc32R32Rm16Rex k _ _ | .crc32R32Rm32Rex k _ _ => k

/-- The destination register (R87). -/
def Instr.dst : Instr → Reg
  | .crc32R32Rm8 _ d _ | .crc32R32Rm8Rex _ d _ | .crc32R32Rm16 _ d _ | .crc32R32Rm32 _ d _
  | .crc32R64Rm8 _ d _ | .crc32R64Rm64 _ d _ | .crc32R32Rm16Rex _ d _ | .crc32R32Rm32Rex _ d _ => d

/-- The source operand (R88, R89). -/
def Instr.src : Instr → Source
  | .crc32R32Rm8 _ _ s | .crc32R32Rm8Rex _ _ s | .crc32R32Rm16 _ _ s | .crc32R32Rm32 _ _ s
  | .crc32R64Rm8 _ _ s | .crc32R64Rm64 _ _ s | .crc32R32Rm16Rex _ _ s | .crc32R32Rm32Rex _ _ s => s

/-- The instruction of a row with given operands. -/
def Form.instr : Form → Bool → Reg → Source → Instr
  | .r32rm8 => .crc32R32Rm8
  | .r32rm8Rex => .crc32R32Rm8Rex
  | .r32rm16 => .crc32R32Rm16
  | .r32rm32 => .crc32R32Rm32
  | .r64rm8 => .crc32R64Rm8
  | .r64rm64 => .crc32R64Rm64
  | .r32rm16Rex => .crc32R32Rm16Rex
  | .r32rm32Rex => .crc32R32Rm32Rex

/-- Do the row's bytes hold a REX byte (R80)? -/
def Form.hasRex : Form → Bool
  | .r32rm8 | .r32rm16 | .r32rm32 => false
  | .r32rm8Rex | .r64rm8 | .r64rm64 | .r32rm16Rex | .r32rm32Rex => true

/-- The width of the source operand in bits (R84). -/
def Form.srcBits : Form → Nat
  | .r32rm8 | .r32rm8Rex | .r64rm8 => 8
  | .r32rm16 | .r32rm16Rex => 16
  | .r32rm32 | .r32rm32Rex => 32
  | .r64rm64 => 64

/-- The width of a memory source in bytes (R56). -/
def Form.srcBytes (f : Form) : Nat := f.srcBits / 8

end Sys2Proof
end

