-- ==== Sys2Proof/WellFormed.lean ====
section
/-! DEFINITION. Which instruction terms have an encoding in a mode: the side conditions of 30_encoding.md that the
constructors of Instr do not express by their shape. -/

namespace Sys2Proof

/-- Numbers 8 to 15, which need a bit of a REX byte (R21). -/
def Reg.extended : Reg → Bool
  | .rax | .rcx | .rdx | .rbx | .rsp | .rbp | .rsi | .rdi => false
  | .r8 | .r9 | .r10 | .r11 | .r12 | .r13 | .r14 | .r15 => true

/-- A register the row can name: numbers 8 to 15 only where a REX byte stands. -/
def Reg.nameable (rex : Bool) (r : Reg) : Bool := rex || !r.extended

/-- An index is any nameable register but number 4, whose code means "no index" (R90). -/
def Index.wellFormed (rex : Bool) (x : Index) : Bool := x.reg.nameable rex && x.reg != .rsp

/-- The index term of a SIB byte: absent, or well-formed. -/
def indexWellFormed (rex : Bool) : Option Index → Bool
  | none => true
  | some x => x.wellFormed rex

/-- A base without a displacement is not RBP or R13, whose codes mean something else with `mod` = 00 (R89, R90). -/
def Disp.fitsBase (d : Disp) (b : Reg) : Bool :=
  match d with
  | .absent => b != .rbp && b != .r13
  | .d8 _ => true
  | .d32 _ => true

/-- The address forms that have an encoding at an address size (R89, R90, R92, R95, R96). -/
def AddrForm.wellFormed (m : Mode) (a : AddrSize) (rex : Bool) : AddrForm → Bool
  | .base b d => a != .a16 && b.nameable rex && b != .rsp && b != .r12 && d.fitsBase b
  | .sib b x d => a != .a16 && b.nameable rex && indexWellFormed rex x && d.fitsBase b
  | .sibNoBase x _ => a != .a16 && indexWellFormed rex x
  | .ripRelative _ => a != .a16 && m == .mode64
  | .absolute _ => a != .a16 && m != .mode64
  | .base16 b d => a == .a16 && !(b == .bp && d == .absent)
  | .absolute16 _ => a == .a16

/-- 64-bit addresses exist in 64-bit mode only, 16-bit addresses everywhere else (R93). -/
def AddrSize.available (m : Mode) (a : AddrSize) : Bool :=
  match a with
  | .a16 => m != .mode64
  | .a32 => true
  | .a64 => m == .mode64

/-- In 64-bit mode only FS and GS are admitted as overrides (R94, R98). -/
def Seg.overridable (m : Mode) (g : Seg) : Bool := m != .mode64 || g == .fs || g == .gs

/-- A segment override: absent, or one the mode admits. -/
def overrideWellFormed (m : Mode) : Option Seg → Bool
  | none => true
  | some g => g.overridable m

/-- A memory operand that has an encoding in the mode. -/
def MemOperand.wellFormed (m : Mode) (rex : Bool) (o : MemOperand) : Bool :=
  o.asize.available m && overrideWellFormed m o.override && o.form.wellFormed m o.asize rex

/-- A source operand that has an encoding in the mode. -/
def Source.wellFormed (m : Mode) (rex : Bool) : Source → Bool
  | .reg i => i.nameable rex
  | .mem o => o.wellFormed m rex

/-- A row's operands that have an encoding in the mode: REX rows in 64-bit mode only (R80, R82). -/
def Form.wellFormed (m : Mode) (f : Form) (dst : Reg) (src : Source) : Bool :=
  (!f.hasRex || m == .mode64) && dst.nameable f.hasRex && src.wellFormed m f.hasRex

/-- An instruction that has an encoding in the mode. -/
def Instr.wellFormed (m : Mode) (i : Instr) : Bool := i.form.wellFormed m i.dst i.src

end Sys2Proof
end

