-- ==== Sys2Proof/Decode.lean ====
section
/-! DEFINITION. From bytes to instructions and back: the decoder of R103, total and rejecting by name; the length of an
instruction (R100); an encoder written from the same tables (R80 to R98). -/

namespace Sys2Proof

/-- Why the decoder refuses (R13, R99, R101, R103). A refusal is never an exception of the hardware. -/
inductive DecodeRefusal where
  /-- The bytes end before the instruction does (R26). Safe. -/
  | truncated
  /-- A legacy prefix byte stands twice (R99). Safe. -/
  | repeatedPrefix
  /-- The byte F3 stands among the prefix bytes (R99). Safe. -/
  | prefixF3
  /-- Two segment overrides (R98, R99). Safe. -/
  | secondSegmentOverride
  /-- An ES, CS, SS or DS override in 64-bit mode (R99, D12). Safe. -/
  | overrideIn64BitMode
  /-- The bytes after the prefix bytes are not 0F 38 F0 or 0F 38 F1 (R101, D2). Safe. -/
  | notCrc32
  /-- No F2 among the prefix bytes (R81, R101). Safe. -/
  | mandatoryF2Missing
  /-- The prefix byte 66 with opcode F0 (R99, D11). Safe. -/
  | operandSizeWithByteSource
  /-- The prefix byte 66 with REX.W = 1 (R99, D11). Safe. -/
  | operandSizeWithRexW
  /-- The prefix byte 67 or a segment override with a register source (R99, D11). Safe. -/
  | addressPrefixWithRegister
  deriving DecidableEq, Repr

/-! ### Register numbers, prefix bytes and field codes -/

/-- The number of a register (R21). -/
def Reg.num : Reg → Nat
  | .rax => 0 | .rcx => 1 | .rdx => 2 | .rbx => 3 | .rsp => 4 | .rbp => 5 | .rsi => 6 | .rdi => 7
  | .r8 => 8 | .r9 => 9 | .r10 => 10 | .r11 => 11 | .r12 => 12 | .r13 => 13 | .r14 => 14 | .r15 => 15

/-- The register with a number (R21). -/
def Reg.ofNum : Nat → Reg
  | 0 => .rax | 1 => .rcx | 2 => .rdx | 3 => .rbx | 4 => .rsp | 5 => .rbp | 6 => .rsi | 7 => .rdi
  | 8 => .r8 | 9 => .r9 | 10 => .r10 | 11 => .r11 | 12 => .r12 | 13 => .r13 | 14 => .r14 | _ => .r15

/-- The register `hi ++ code`: a three-bit field with a REX bit in front (R82, R87 to R90). -/
def Reg.ofField (hi : Bool) (code : BitVec 3) : Reg := Reg.ofNum (code.toNat + if hi then 8 else 0)

/-- The three bits of a register's number that stand in a ModRM or SIB field. -/
def Reg.code (r : Reg) : BitVec 3 := BitVec.ofNat 3 r.num

/-- The segment a prefix byte names (R94). -/
def segOfByte (b : Byte) : Option Seg :=
  if b = 0x26 then some .es else if b = 0x2E then some .cs else if b = 0x36 then some .ss
  else if b = 0x3E then some .ds else if b = 0x64 then some .fs else if b = 0x65 then some .gs else none

/-- The prefix byte that names a segment (R94). -/
def Seg.byte : Seg → Byte
  | .es => 0x26 | .cs => 0x2E | .ss => 0x36 | .ds => 0x3E | .fs => 0x64 | .gs => 0x65

/-- The scale field of a SIB byte (R90). -/
def Scale.ofCode (c : BitVec 2) : Scale := if c = 0 then .x1 else if c = 1 then .x2 else if c = 2 then .x4 else .x8

def Scale.code : Scale → BitVec 2
  | .x1 => 0 | .x2 => 1 | .x4 => 2 | .x8 => 3

/-- The register term of a 16-bit `rm` field (R96). -/
def Base16.ofCode (c : BitVec 3) : Base16 :=
  if c = 0 then .bxSi else if c = 1 then .bxDi else if c = 2 then .bpSi else if c = 3 then .bpDi
  else if c = 4 then .si else if c = 5 then .di else if c = 6 then .bp else .bx

def Base16.code : Base16 → BitVec 3
  | .bxSi => 0 | .bxDi => 1 | .bpSi => 2 | .bpDi => 3 | .si => 4 | .di => 5 | .bp => 6 | .bx => 7

/-! ### The two field bytes -/

/-- `ModRM`: `mod` bits 7:6, `reg` bits 5:3, `rm` bits 2:0 (R86). `SIB` has the same shape: `scale`, `index`, `base`
(R90). -/
structure FieldByte where
  top : BitVec 2
  mid : BitVec 3
  low : BitVec 3
  deriving DecidableEq, Repr

def FieldByte.ofByte (b : Byte) : FieldByte :=
  { top := b.extractLsb' 6 2, mid := b.extractLsb' 3 3, low := b.extractLsb' 0 3 }

def FieldByte.byte (f : FieldByte) : Byte := (f.top ++ f.mid ++ f.low).setWidth 8

/-- The `REX` byte `0100WRXB` (R82). -/
structure Rex where
  w : Bool
  r : Bool
  x : Bool
  b : Bool
  deriving DecidableEq, Repr

def Rex.ofByte (b : Byte) : Rex := { w := b.getLsbD 3, r := b.getLsbD 2, x := b.getLsbD 1, b := b.getLsbD 0 }

def Rex.byte (x : Rex) : Byte :=
  ((0x4 : BitVec 4) ++ BitVec.ofBool x.w ++ BitVec.ofBool x.r ++ BitVec.ofBool x.x ++ BitVec.ofBool x.b).setWidth 8

/-- "`W,R,X,B` (all 0 if rex = none)" (R103). -/
def Rex.ofOption : Option Rex → Rex
  | some x => x
  | none => { w := false, r := false, x := false, b := false }

/-! ### Default sizes -/

/-- The default operand and address size outside 64-bit mode: `CS_D`, fixed to 16 in real-address and virtual-8086
mode (R8, R84, R93). -/
def CodeContext.codeSize (c : CodeContext) : CodeSize :=
  match c.mode with
  | .real => .d16
  | .v86 => .d16
  | .mode64 => .d32
  | .compat => c.csD
  | .prot => c.csD

/-- Does an `F1` row without REX.W have a 16-bit source, given the presence of the prefix byte 66 (R84)? -/
def CodeContext.word16 (c : CodeContext) (p66 : Bool) : Bool :=
  match c.codeSize with
  | .d32 => p66
  | .d16 => !p66

/-- The address size, given the presence of the prefix byte 67 (R93). -/
def CodeContext.addrSize (c : CodeContext) (p67 : Bool) : AddrSize :=
  match c.mode, c.codeSize, p67 with
  | .mode64, _, false => .a64
  | .mode64, _, true => .a32
  | _, .d32, false => .a32
  | _, .d32, true => .a16
  | _, .d16, false => .a16
  | _, .d16, true => .a32

/-! ### The decoder (R103) -/

/-- The legacy prefix bytes seen so far (R98). -/
structure Legacy where
  p66 : Bool
  p67 : Bool
  pF2 : Bool
  lock : Bool
  seg : Option Seg
  deriving DecidableEq, Repr

def Legacy.empty : Legacy := { p66 := false, p67 := false, pF2 := false, lock := false, seg := none }

/-- One legacy prefix byte added to those seen: a refusal, the new set, or no prefix byte at all (R98, R99). -/
def Legacy.add (m : Mode) (p : Legacy) (b : Byte) : Except DecodeRefusal (Option Legacy) :=
  if b = 0x66 then (if p.p66 then .error .repeatedPrefix else .ok (some { p with p66 := true }))
  else if b = 0x67 then (if p.p67 then .error .repeatedPrefix else .ok (some { p with p67 := true }))
  else if b = 0xF2 then (if p.pF2 then .error .repeatedPrefix else .ok (some { p with pF2 := true }))
  else if b = 0xF0 then (if p.lock then .error .repeatedPrefix else .ok (some { p with lock := true }))
  else if b = 0xF3 then .error .prefixF3
  else
    match segOfByte b with
    | none => .ok none
    | some g =>
      if p.seg.isSome then .error .secondSegmentOverride
      else if g.overridable m then .ok (some { p with seg := some g })
      else .error .overrideIn64BitMode

/-- The loop over the legacy prefix bytes (R103). -/
def readLegacy (m : Mode) : Legacy → List Byte → Except DecodeRefusal (Legacy × List Byte)
  | _, [] => .error .truncated
  | p, b :: bs =>
    match p.add m b with
    | .error e => .error e
    | .ok none => .ok (p, b :: bs)
    | .ok (some p') => readLegacy m p' bs

/-- A `REX` byte, in 64-bit mode only (R82). -/
def readRex (m : Mode) : List Byte → Option Rex × List Byte
  | [] => (none, [])
  | b :: bs => if m = .mode64 ∧ b.extractLsb' 4 4 = 0x4 then (some (Rex.ofByte b), bs) else (none, b :: bs)

/-- The three opcode bytes; the answer is whether the third is F1 (R83, R101). -/
def readOpcode : List Byte → Except DecodeRefusal (Bool × List Byte)
  | [] => .error .truncated
  | b0 :: bs0 =>
    if b0 ≠ 0x0F then .error .notCrc32
    else match bs0 with
      | [] => .error .truncated
      | b1 :: bs1 =>
        if b1 ≠ 0x38 then .error .notCrc32
        else match bs1 with
          | [] => .error .truncated
          | b2 :: bs2 =>
            if b2 = 0xF0 then .ok (false, bs2) else if b2 = 0xF1 then .ok (true, bs2) else .error .notCrc32

/-- The row, from the third opcode byte, the REX byte, the prefix byte 66 and the default operand size (R84, R85, R99,
R108). -/
def chooseForm (c : CodeContext) (p66 : Bool) (rex : Option Rex) (f1 : Bool) : Except DecodeRefusal Form :=
  match f1, rex with
  | false, none => if p66 then .error .operandSizeWithByteSource else .ok .r32rm8
  | false, some x =>
    if p66 then .error .operandSizeWithByteSource else if x.w then .ok .r64rm8 else .ok .r32rm8Rex
  | true, none => if c.word16 p66 then .ok .r32rm16 else .ok .r32rm32
  | true, some x =>
    if x.w then (if p66 then .error .operandSizeWithRexW else .ok .r64rm64)
    else if c.word16 p66 then .ok .r32rm16Rex else .ok .r32rm32Rex

/-- One displacement byte (R91). -/
def readDisp8 : List Byte → Except DecodeRefusal (Byte × List Byte)
  | [] => .error .truncated
  | b :: bs => .ok (b, bs)

/-- Two displacement bytes, the lower first (R91). -/
def readDisp16 : List Byte → Except DecodeRefusal (Word16 × List Byte)
  | b0 :: b1 :: bs => .ok (b0.setWidth 16 ||| b1.setWidth 16 <<< 8, bs)
  | [_] => .error .truncated
  | [] => .error .truncated

/-- Four displacement bytes, the lowest first (R91). -/
def readDisp32 : List Byte → Except DecodeRefusal (Word32 × List Byte)
  | b0 :: b1 :: b2 :: b3 :: bs => .ok (b0.setWidth 32 ||| b1.setWidth 32 <<< 8 ||| b2.setWidth 32 <<< 16 ||| b3.setWidth 32 <<< 24, bs)
  | [_, _, _] => .error .truncated
  | [_, _] => .error .truncated
  | [_] => .error .truncated
  | [] => .error .truncated

/-- A 32-bit displacement followed by nothing else. -/
def readForm32 (mk : Word32 → AddrForm) (bs : List Byte) : Except DecodeRefusal (AddrForm × List Byte) :=
  match readDisp32 bs with
  | .error e => .error e
  | .ok (d, rest) => .ok (mk d, rest)

/-- The displacement that `mod` = 00, 01 or 10 announces in a 32- or 64-bit address form (R89). -/
def readDisp (md : BitVec 2) (mk : Disp → AddrForm) (bs : List Byte) : Except DecodeRefusal (AddrForm × List Byte) :=
  if md = 0 then .ok (mk .absent, bs)
  else if md = 1 then
    match readDisp8 bs with
    | .error e => .error e
    | .ok (d, rest) => .ok (mk (.d8 d), rest)
  else readForm32 (fun d => mk (.d32 d)) bs

/-- The index term of a SIB byte: absent when the index number is 4 (R90). -/
def sibIndex (x : Rex) (sib : FieldByte) : Option Index :=
  if Reg.ofField x.x sib.mid = .rsp then none
  else some { reg := Reg.ofField x.x sib.mid, scale := Scale.ofCode sib.top }

/-- The SIB byte and what follows it (R90). -/
def readSib (x : Rex) (md : BitVec 2) : List Byte → Except DecodeRefusal (AddrForm × List Byte)
  | [] => .error .truncated
  | b :: bs =>
    let sib := FieldByte.ofByte b
    if md = 0 ∧ sib.low = 5 then readForm32 (.sibNoBase (sibIndex x sib)) bs
    else readDisp md (.sib (Reg.ofField x.b sib.low) (sibIndex x sib)) bs

/-- An address form of address size 64 or 32 (R89, R92, R95). -/
def readForm (m : Mode) (x : Rex) (md : BitVec 2) (rm : BitVec 3) (bs : List Byte) :
    Except DecodeRefusal (AddrForm × List Byte) :=
  if rm = 4 then readSib x md bs
  else if md = 0 ∧ rm = 5 then readForm32 (if m = .mode64 then .ripRelative else .absolute) bs
  else readDisp md (.base (Reg.ofField x.b rm)) bs

/-- An address form of address size 16 (R96). -/
def readForm16 (md : BitVec 2) (rm : BitVec 3) (bs : List Byte) : Except DecodeRefusal (AddrForm × List Byte) :=
  if md = 0 then
    if rm = 6 then
      match readDisp16 bs with
      | .error e => .error e
      | .ok (d, rest) => .ok (.absolute16 d, rest)
    else .ok (.base16 (Base16.ofCode rm) .absent, bs)
  else if md = 1 then
    match readDisp8 bs with
    | .error e => .error e
    | .ok (d, rest) => .ok (.base16 (Base16.ofCode rm) (.d8 d), rest)
  else
    match readDisp16 bs with
    | .error e => .error e
    | .ok (d, rest) => .ok (.base16 (Base16.ofCode rm) (.d16 d), rest)

/-- Operand 2 (R88, R89, R93, R94, R96, R99). -/
def readSource (c : CodeContext) (p : Legacy) (x : Rex) (modrm : FieldByte) (bs : List Byte) :
    Except DecodeRefusal (Source × List Byte) :=
  if modrm.top = 3 then
    if p.p67 || p.seg.isSome then .error .addressPrefixWithRegister
    else .ok (.reg (Reg.ofField x.b modrm.low), bs)
  else
    let a := c.addrSize p.p67
    match (if a = .a16 then readForm16 modrm.top modrm.low bs else readForm c.mode x modrm.top modrm.low bs) with
    | .error e => .error e
    | .ok (f, rest) => .ok (.mem { asize := a, override := p.seg, form := f }, rest)

/-- The ModRM byte and the operands, once the row is known (R86, R87). -/
def readOperands (c : CodeContext) (p : Legacy) (rex : Option Rex) (f : Form) :
    List Byte → Except DecodeRefusal (Instr × List Byte)
  | [] => .error .truncated
  | b :: bs =>
    let modrm := FieldByte.ofByte b
    let x := Rex.ofOption rex
    match readSource c p x modrm bs with
    | .error e => .error e
    | .ok (src, rest) => .ok (f.instr p.lock (Reg.ofField x.r modrm.mid) src, rest)

/-- The decoder of R103: the instruction that a byte sequence begins with and the bytes after it, or a refusal. -/
def decode (c : CodeContext) (bytes : List Byte) : Except DecodeRefusal (Instr × List Byte) :=
  match readLegacy c.mode .empty bytes with
  | .error e => .error e
  | .ok (p, bs1) =>
    match readOpcode (readRex c.mode bs1).2 with
    | .error e => .error e
    | .ok (f1, bs2) =>
      if p.pF2 then
        match chooseForm c p.p66 (readRex c.mode bs1).1 f1 with
        | .error e => .error e
        | .ok f => readOperands c p (readRex c.mode bs1).1 f bs2
      else .error .mandatoryF2Missing

/-! ### The encoder -/

/-- The row's third opcode byte is F1 (R83). -/
def Form.opcodeF1 : Form → Bool
  | .r32rm8 | .r32rm8Rex | .r64rm8 => false
  | .r32rm16 | .r32rm32 | .r64rm64 | .r32rm16Rex | .r32rm32Rex => true

/-- `REX.W` (R82). -/
def Form.rexW : Form → Bool
  | .r64rm8 | .r64rm64 => true
  | .r32rm8 | .r32rm8Rex | .r32rm16 | .r32rm32 | .r32rm16Rex | .r32rm32Rex => false

/-- Does the row need the prefix byte 66 in this context (R84)? -/
def Form.needs66 (c : CodeContext) : Form → Bool
  | .r32rm16 | .r32rm16Rex => c.word16 true
  | .r32rm32 | .r32rm32Rex => !c.word16 true
  | .r32rm8 | .r32rm8Rex | .r64rm8 | .r64rm64 => false

/-- Does the operand need the prefix byte 67 in this context (R93)? -/
def Source.needs67 (c : CodeContext) : Source → Bool
  | .reg _ => false
  | .mem o => o.asize != c.addrSize false

/-- The segment override of an operand. -/
def Source.override : Source → Option Seg
  | .reg _ => none
  | .mem o => o.override

def Disp.bytes : Disp → List Byte
  | .absent => []
  | .d8 v => [v]
  | .d32 v => [v.extractLsb' 0 8, v.extractLsb' 8 8, v.extractLsb' 16 8, v.extractLsb' 24 8]

def Disp16.bytes : Disp16 → List Byte
  | .absent => []
  | .d8 v => [v]
  | .d16 v => [v.extractLsb' 0 8, v.extractLsb' 8 8]

/-- The `mod` field a displacement asks for (R89). -/
def Disp.mod : Disp → BitVec 2
  | .absent => 0
  | .d8 _ => 1
  | .d32 _ => 2

def Disp16.mod : Disp16 → BitVec 2
  | .absent => 0
  | .d8 _ => 1
  | .d16 _ => 2

/-- The SIB byte with an index term and a base field (R90). -/
def sibByte (x : Option Index) (base : BitVec 3) : Byte :=
  match x with
  | none => FieldByte.byte { top := 0, mid := 4, low := base }
  | some i => FieldByte.byte { top := i.scale.code, mid := i.reg.code, low := base }

/-- `mod`, `rm` and the bytes after ModRM of an address form (R89, R90, R96). -/
def AddrForm.encode : AddrForm → BitVec 2 × BitVec 3 × List Byte
  | .base b d => (d.mod, b.code, d.bytes)
  | .sib b x d => (d.mod, 4, sibByte x b.code :: d.bytes)
  | .sibNoBase x d => (0, 4, sibByte x 5 :: Disp.bytes (.d32 d))
  | .ripRelative d => (0, 5, Disp.bytes (.d32 d))
  | .absolute d => (0, 5, Disp.bytes (.d32 d))
  | .base16 b d => (d.mod, b.code, d.bytes)
  | .absolute16 d => (0, 6, Disp16.bytes (.d16 d))

/-- `mod`, `rm` and the bytes after ModRM of a source operand (R86). -/
def Source.encode : Source → BitVec 2 × BitVec 3 × List Byte
  | .reg i => (3, i.code, [])
  | .mem o => o.form.encode

/-- `REX.X`: bit 3 of the index register's number (R82). -/
def AddrForm.rexX : AddrForm → Bool
  | .sib _ (some x) _ => x.reg.extended
  | .sibNoBase (some x) _ => x.reg.extended
  | .sib _ none _ => false
  | .sibNoBase none _ => false
  | .base _ _ => false
  | .ripRelative _ => false
  | .absolute _ => false
  | .base16 _ _ => false
  | .absolute16 _ => false

/-- `REX.B`: bit 3 of the base register's number (R82). -/
def AddrForm.rexB : AddrForm → Bool
  | .base b _ => b.extended
  | .sib b _ _ => b.extended
  | .sibNoBase _ _ => false
  | .ripRelative _ => false
  | .absolute _ => false
  | .base16 _ _ => false
  | .absolute16 _ => false

def Source.rexX : Source → Bool
  | .reg _ => false
  | .mem o => o.form.rexX

def Source.rexB : Source → Bool
  | .reg i => i.extended
  | .mem o => o.form.rexB

/-- The prefix byte of a segment override, if there is one (R94). -/
def overrideBytes : Option Seg → List Byte
  | none => []
  | some g => [g.byte]

/-- The legacy prefix bytes in one fixed order: F0, 66, 67, segment override, F2 (R98 leaves the order free; decode
accepts every order). -/
def legacyBytes (c : CodeContext) (f : Form) (lock : Bool) (src : Source) : List Byte :=
  (if lock then [0xF0] else []) ++ (if f.needs66 c then [0x66] else []) ++ (if src.needs67 c then [0x67] else []) ++
    overrideBytes src.override ++ [0xF2]

/-- The REX byte of a row that has one (R82). -/
def rexBytes (f : Form) (dst : Reg) (src : Source) : List Byte :=
  if f.hasRex then [Rex.byte { w := f.rexW, r := dst.extended, x := src.rexX, b := src.rexB }] else []

/-- The bytes of a row with its operands (R80). -/
def Form.encode (c : CodeContext) (f : Form) (lock : Bool) (dst : Reg) (src : Source) : List Byte :=
  legacyBytes c f lock src ++ rexBytes f dst src ++ [0x0F, 0x38, if f.opcodeF1 then 0xF1 else 0xF0] ++
    FieldByte.byte { top := src.encode.1, mid := dst.code, low := src.encode.2.1 } :: src.encode.2.2

/-- The bytes of an instruction (R80). -/
def encode (c : CodeContext) (i : Instr) : List Byte := i.form.encode c i.lock i.dst i.src

/-! ### Length (R100) -/

def Disp.size : Disp → Nat
  | .absent => 0
  | .d8 _ => 1
  | .d32 _ => 4

def Disp16.size : Disp16 → Nat
  | .absent => 0
  | .d8 _ => 1
  | .d16 _ => 2

/-- SIB and displacement bytes of an address form. -/
def AddrForm.size : AddrForm → Nat
  | .base _ d => d.size
  | .sib _ _ d => 1 + d.size
  | .sibNoBase _ _ => 1 + 4
  | .ripRelative _ => 4
  | .absolute _ => 4
  | .base16 _ d => d.size
  | .absolute16 _ => 2

def Source.size : Source → Nat
  | .reg _ => 0
  | .mem o => o.form.size

/-- `len`: legacy prefix bytes, REX, three opcode bytes, ModRM, SIB and displacement bytes (R100). -/
def Form.len (c : CodeContext) (f : Form) (lock : Bool) (src : Source) : Nat :=
  1 + lock.toNat + (f.needs66 c).toNat + (src.needs67 c).toNat + src.override.isSome.toNat + f.hasRex.toNat + 3 + 1 +
    src.size

/-- The length of an instruction in bytes in this context (R100). -/
def Instr.len (c : CodeContext) (i : Instr) : Nat := i.form.len c i.lock i.src

/-! ### The opcode table's words (R108) -/

/-- The longest instruction, 15 bytes with LOCK (R100). -/
def maxLen : Nat := 15

/-- The lowest `k` bytes of a number, the lowest first. -/
def lowBytes : Nat → Nat → List Byte
  | 0, _ => []
  | k + 1, w => BitVec.ofNat 8 w :: lowBytes k (w / 256)

/-- The bytes of a row's word. A row of 24 bits is "the three opcode bytes taken as one 24-bit number, first byte most
significant" (R108), without the mandatory prefix byte F2, which the row's encoding puts in front; any other number of
bits is read as bytes, the first in bits 7:0 (log entry 3). The instruction's further bytes are 0, up to the longest
instruction. -/
def tableBytes (nbits w : Nat) : List Byte :=
  ((if nbits = 24 then 0xF2 :: (lowBytes 3 w).reverse else lowBytes (nbits / 8) w) ++ List.replicate maxLen 0).take maxLen

/-- The context the opcode table's words are read in: that of `State.reset` (log entry 1). -/
def tableContext : CodeContext := { mode := .mode64, csD := .d32 }

/-- The instruction this decoder reads from a word of the opcode table. -/
def decodeTableWord (nbits w : Nat) : Option Instr :=
  match decode tableContext (tableBytes nbits w) with
  | .ok (i, _) => some i
  | .error _ => none

end Sys2Proof
end

