-- ==== Sys2Proof/Machine/State.lean ====
section
/-! DEFINITION. The machine's state as plain data (R8, R20 to R35, R211), the reasons a step can stop (R13, R170), and
the state a run starts from. -/

namespace Sys2Proof.Machine

/-- The five exceptions of `CRC32` (R170), each with what R180 says the outcome carries. A step that raises one has the
outcome fault: no state changes and the run stops (R180, D3; log entry 4). Safe: the hardware would go on in a handler
that the spec does not describe. -/
inductive Fault where
  /-- `#UD`, raised by every form when SSE4_2 = 0 or a LOCK prefix stands (R171). Safe. -/
  | ud
  /-- `#SS(0)`, raised by the read of a memory operand through SS (R60, R61). Safe. -/
  | ss0
  /-- `#GP(0)`, raised by the read of a memory operand through another segment (R60, R61). Safe. -/
  | gp0
  /-- `#PF(fault-code)` with the faulting linear address, raised by the read of a memory operand (R62, R63, R178).
  Safe. -/
  | pf (code : BitVec 32) (address : Word64)
  /-- `#AC(0)`, raised by the read of an unaligned memory operand (R177). Safe. -/
  | ac0
  deriving DecidableEq, Repr

/-- The error code an exception carries (R170); `#UD` has none. -/
def Fault.errorCode : Fault → Option (BitVec 32)
  | .ud => none
  | .ss0 => some 0
  | .gp0 => some 0
  | .pf code _ => some code
  | .ac0 => some 0

/-- The vector number of an exception (R170; general knowledge of the spec, read by no rule). -/
def Fault.vector : Fault → Nat
  | .ud => 6
  | .ss0 => 12
  | .gp0 => 13
  | .pf _ _ => 14
  | .ac0 => 17

/-- Why the spec gives a step no meaning (R13). A refusal is never an exception of the hardware. -/
inductive Refusal where
  /-- Raised by an arm of exec whose instruction has no meaning yet (none is left). Safe. -/
  | notModelled (mnemonic : String)
  /-- Raised by a step whose bytes the decoder refuses (R99, R101, D2). Safe. -/
  | undecodable (why : DecodeRefusal)
  /-- Raised by a step at the end of the program text: the run is over (R213; log entry 11). Safe. -/
  | runOver
  /-- Raised by a step whose pc lies outside the program text (R26, R55). Safe. -/
  | pcOutsideText
  /-- Raised by a step whose pc would pass the top of the address space or the mode's limit (R26, D13; log entry 10).
  Safe. -/
  | pcWraps
  /-- Raised by a step whose MODE and CPL do not fit together (R184). Safe. -/
  | incoherentMode
  /-- Raised by the meaning of a form that has no encoding in the mode, which no step reaches (R80, U1; log entry 19).
  Safe. -/
  | notEncodable
  /-- Raised by the read of a 64-bit mode operand that runs past 2^64 (R53, D18). Safe. -/
  | operandWraps
  /-- Raised by a read that passed every check and finds a byte outside the launch memory (R53 step 4, R57, D17). Safe. -/
  | outsideLaunchMemory
  deriving DecidableEq, Repr

/-- The general registers (R20, R21). -/
structure Gprs where
  rax : Word64
  rcx : Word64
  rdx : Word64
  rbx : Word64
  rsp : Word64
  rbp : Word64
  rsi : Word64
  rdi : Word64
  r8 : Word64
  r9 : Word64
  r10 : Word64
  r11 : Word64
  r12 : Word64
  r13 : Word64
  r14 : Word64
  r15 : Word64
  deriving DecidableEq, Repr

/-- What the model needs of a segment outside 64-bit mode (R31): the selector, whose multiple by 16 is the base in
real-address and virtual-8086 mode; and for protected and compatibility mode the base and the ranges of offsets (first,
last) that are inside the segment and readable, standing for `SegBase` and `InSegment` (D16; log entry 7). -/
structure SegReg where
  selector : BitVec 16
  base : Word32
  readable : List (Nat × Nat)
  deriving DecidableEq, Repr

/-- The six segment registers (R31). -/
structure SegRegs where
  cs : SegReg
  ds : SegReg
  es : SegReg
  fs : SegReg
  gs : SegReg
  ss : SegReg
  deriving DecidableEq, Repr

/-- The machine's state. -/
structure State where
  /-- The general registers x[0] to x[15] (R20). -/
  regs : Gprs
  /-- The instruction pointer (R25). -/
  pc : Word64
  /-- RFLAGS; only AC, bit 18, is ever read (R27, R30). -/
  rflags : Word64
  /-- MODE (R32). -/
  mode : Mode
  /-- CS_D (R8, R84). -/
  csD : CodeSize
  /-- CPUID.01H:ECX.SSE4_2, bit 20 (R28). -/
  sse42 : Bool
  /-- CPL (R29). -/
  cpl : BitVec 2
  /-- CR0.AM (R30). -/
  cr0AM : Bool
  /-- VA_BITS (R60). -/
  vaBits : VaBits
  /-- FS_BASE in 64-bit mode (R59). -/
  fsBase : Word64
  /-- GS_BASE in 64-bit mode (R59). -/
  gsBase : Word64
  /-- The segment registers (R31). -/
  segs : SegRegs
  /-- Is bit 20 of a physical address masked in real-address mode (R59, D29; log entry 8)? -/
  a20Masked : Bool
  /-- Translate (R62). -/
  paging : Paging
  /-- The data memory given at launch (R57, R58, R211). -/
  mem : List Host.Cell
  /-- code_base (R211). -/
  codeBase : Word64
  /-- The program text (R55, R211). -/
  code : List Byte
  /-- The fault record, empty until a run stops in a fault (R180, R211). -/
  faultRecord : Option Fault
  deriving DecidableEq, Repr

/-- All sixteen registers zero. -/
def Gprs.zero : Gprs :=
  { rax := 0, rcx := 0, rdx := 0, rbx := 0, rsp := 0, rbp := 0, rsi := 0, rdi := 0,
    r8 := 0, r9 := 0, r10 := 0, r11 := 0, r12 := 0, r13 := 0, r14 := 0, r15 := 0 }

/-- The spec's default segment: base 0 and every 32-bit offset readable (D16). -/
def SegReg.flat : SegReg := { selector := 0, base := 0, readable := [(0, 0xFFFFFFFF)] }

/-- The six segments at the spec's default (D16). -/
def SegRegs.flat : SegRegs := { cs := .flat, ds := .flat, es := .flat, fs := .flat, gs := .flat, ss := .flat }

/-- The state a run starts from when the host says nothing else: a launch state (R35, R211, D5) of the recommended
subset (R7) with the spec's default parameters, zero registers, no data memory and no program text. The spec gives no
reset value; the values are the model's choice (DESIGN CHOICE, log entry 1). -/
def State.reset : State :=
  { regs := .zero, pc := 0, rflags := 2, mode := .mode64, csD := .d32, sse42 := true, cpl := 0, cr0AM := false,
    vaBits := .va48, fsBase := 0, gsBase := 0, segs := .flat, a20Masked := false, paging := .admitted, mem := [],
    codeBase := 0, code := [], faultRecord := none }

/-- A segment with a base and a limit of FFFFH, as after power-up (R210). -/
def SegReg.powerUp (selector : BitVec 16) (base : Word32) : SegReg :=
  { selector := selector, base := base, readable := [(0, 0xFFFF)] }

/-- The power-up state R210 lists for information, as far as it names state of this machine; the self-test result in
EAX and the processor signature in EDX, which R210 leaves open, are arguments. "A model must not rest a claim on them":
nothing in the package does (PRESUMED, log entry 2). -/
def State.powerUp (selfTest signature : Word32) (sse42 : Bool) : State :=
  { State.reset with
    regs := { Gprs.zero with rax := selfTest.setWidth 64, rdx := signature.setWidth 64 }
    pc := 0xFFF0
    mode := .real
    csD := .d16
    sse42 := sse42
    segs :=
      { cs := .powerUp 0xF000 0xFFFF0000, ds := .powerUp 0 0, es := .powerUp 0 0, fs := .powerUp 0 0,
        gs := .powerUp 0 0, ss := .powerUp 0 0 }
    codeBase := 0xFFF0 }

end Sys2Proof.Machine
end

