-- ==== Sys2Proof/Machine/Flags.lean ====
section
/-! DEFINITION. RFLAGS (R27) and the one condition that reads it (R30). `CRC32` writes no flag and computes none, so
there is no flag computation. -/

namespace Sys2Proof.Machine

/-- The bits of RFLAGS the spec names (R27). -/
inductive FlagBit where
  | cf | pf | af | zf | sf | of | ac
  deriving DecidableEq, Repr

/-- The position of a flag in RFLAGS (R27). -/
def FlagBit.pos : FlagBit → Nat
  | .cf => 0 | .pf => 2 | .af => 4 | .zf => 6 | .sf => 7 | .of => 11 | .ac => 18

/-- The value of a flag. -/
def State.flag (s : State) (b : FlagBit) : Bool := s.rflags.getLsbD b.pos

/-- `ALIGN_CHECK = (CR0.AM = 1) and (EFLAGS.AC = 1)` (R30). -/
def State.alignCheck (s : State) : Bool := s.cr0AM && s.flag .ac

end Sys2Proof.Machine
end

