-- ==== Sys2Proof/Machine/Operands.lean ====
section
/-! DEFINITION. Register operands and their views (R11, R22, R23), the effective address of a memory operand (R89 to
R96) and the segment it goes through (R94). -/

namespace Sys2Proof.Machine

/-! ### General registers -/

/-- `x[i]` (R11). -/
def Gprs.get (g : Gprs) : Reg → Word64
  | .rax => g.rax | .rcx => g.rcx | .rdx => g.rdx | .rbx => g.rbx
  | .rsp => g.rsp | .rbp => g.rbp | .rsi => g.rsi | .rdi => g.rdi
  | .r8 => g.r8 | .r9 => g.r9 | .r10 => g.r10 | .r11 => g.r11
  | .r12 => g.r12 | .r13 => g.r13 | .r14 => g.r14 | .r15 => g.r15

/-- `x[i] <- v` (R11). -/
def Gprs.set (g : Gprs) (i : Reg) (v : Word64) : Gprs :=
  match i with
  | .rax => { g with rax := v } | .rcx => { g with rcx := v } | .rdx => { g with rdx := v }
  | .rbx => { g with rbx := v } | .rsp => { g with rsp := v } | .rbp => { g with rbp := v }
  | .rsi => { g with rsi := v } | .rdi => { g with rdi := v } | .r8 => { g with r8 := v }
  | .r9 => { g with r9 := v } | .r10 => { g with r10 := v } | .r11 => { g with r11 := v }
  | .r12 => { g with r12 := v } | .r13 => { g with r13 := v } | .r14 => { g with r14 := v }
  | .r15 => { g with r15 := v }

/-- `R64(i)` (R11). -/
def State.r64 (s : State) (i : Reg) : Word64 := s.regs.get i

/-- `R32(i) = x[i][31:0]` (R11). -/
def State.r32 (s : State) (i : Reg) : Word32 := (s.r64 i).extractLsb' 0 32

/-- `R16(i) = x[i][15:0]` (R11). -/
def State.r16 (s : State) (i : Reg) : Word16 := (s.r64 i).extractLsb' 0 16

/-- `x[i][7:0]`: AL to BL without a REX byte, AL to R15B with one (R21). -/
def State.low8 (s : State) (i : Reg) : Byte := (s.r64 i).extractLsb' 0 8

/-- `x[i][15:8]`: AH, CH, DH, BH (R22). -/
def State.high8 (s : State) (i : Reg) : Byte := (s.r64 i).extractLsb' 8 8

/-- `R8(i, rex)`: without a REX byte numbers 4 to 7 name AH, CH, DH, BH (R11, R21, R88). -/
def State.r8 (s : State) (i : Reg) (rex : Bool) : Byte :=
  if rex then s.low8 i
  else
    match i with
    | .rsp => s.high8 .rax
    | .rbp => s.high8 .rcx
    | .rsi => s.high8 .rdx
    | .rdi => s.high8 .rbx
    | .rax | .rcx | .rdx | .rbx | .r8 | .r9 | .r10 | .r11 | .r12 | .r13 | .r14 | .r15 => s.low8 i

/-- The one write of a general register. -/
def State.setReg (s : State) (i : Reg) (v : Word64) : State := { s with regs := s.regs.set i v }

/-- The 64-bit content that `W32(i, v)` leaves in a register that held `old` (R11, R23): zero above bit 31 in 64-bit
mode (D21; log entry 15); elsewhere bits 63:32 are not state and keep what they hold (log entry 17). -/
def write32 (m : Mode) (old : Word64) (v : Word32) : Word64 :=
  if m = .mode64 then v.setWidth 64 else old >>> 32 <<< 32 ||| v.setWidth 64

/-- `W32(i, v)` (R11, R23). -/
def State.w32 (s : State) (i : Reg) (v : Word32) : State := s.setReg i (write32 s.mode (s.r64 i) v)

/-- `W64(i, v)` (R11). -/
def State.w64 (s : State) (i : Reg) (v : Word64) : State := s.setReg i v

/-- `pc <- t` (R11). -/
def State.setPc (s : State) (t : Word64) : State := { s with pc := t }

/-! ### Segments -/

def SegRegs.get (g : SegRegs) : Seg → SegReg
  | .es => g.es | .cs => g.cs | .ss => g.ss | .ds => g.ds | .fs => g.fs | .gs => g.gs

/-- The segment of an address whose base register is `b`: SS for numbers 4 and 5 (R94). -/
def baseSegment (b : Reg) : Seg := if b = .rsp ∨ b = .rbp then .ss else .ds

/-- The default segment of a 16-bit form: SS where BP takes part (R96). -/
def base16Segment : Base16 → Seg
  | .bpSi | .bpDi | .bp => .ss
  | .bxSi | .bxDi | .si | .di | .bx => .ds

/-- The default segment of an address form (R94, R96). -/
def formSegment : AddrForm → Seg
  | .base b _ => baseSegment b
  | .sib b _ _ => baseSegment b
  | .sibNoBase _ _ => .ds
  | .ripRelative _ => .ds
  | .absolute _ => .ds
  | .base16 b _ => base16Segment b
  | .absolute16 _ => .ds

/-- The segment of a memory operand: the override, or the default (R94). -/
def operandSegment (o : MemOperand) : Seg := o.override.getD (formSegment o.form)

/-! ### Effective addresses -/

/-- A 64-bit value cut to the address size and zero-extended (R89, R93). -/
def cutTo (a : AddrSize) (v : Word64) : Word64 :=
  match a with
  | .a16 => (v.extractLsb' 0 16).setWidth 64
  | .a32 => (v.extractLsb' 0 32).setWidth 64
  | .a64 => v

/-- A register read at the address size (R89). -/
def State.addrReg (s : State) (a : AddrSize) (i : Reg) : Word64 := cutTo a (s.r64 i)

/-- A displacement, sign-extended (R91). -/
def dispValue : Disp → Word64
  | .absent => 0
  | .d8 v => v.signExtend 64
  | .d32 v => v.signExtend 64

/-- A displacement of a 16-bit form: a byte is sign-extended, a word is a number modulo 2^16 (R91, R96). -/
def disp16Value : Disp16 → Word64
  | .absent => 0
  | .d8 v => v.signExtend 64
  | .d16 v => v.setWidth 64

/-- The factor's exponent (R90). -/
def scaleShift : Scale → Nat
  | .x1 => 0 | .x2 => 1 | .x4 => 2 | .x8 => 3

/-- The index term, `x[i] * 2^scale` or nothing (R90). -/
def State.indexTerm (s : State) (a : AddrSize) : Option Index → Word64
  | none => 0
  | some x => s.addrReg a x.reg <<< scaleShift x.scale

/-- The register term of a 16-bit form (R96). -/
def State.base16Term (s : State) : Base16 → Word64
  | .bxSi => s.addrReg .a16 .rbx + s.addrReg .a16 .rsi
  | .bxDi => s.addrReg .a16 .rbx + s.addrReg .a16 .rdi
  | .bpSi => s.addrReg .a16 .rbp + s.addrReg .a16 .rsi
  | .bpDi => s.addrReg .a16 .rbp + s.addrReg .a16 .rdi
  | .si => s.addrReg .a16 .rsi
  | .di => s.addrReg .a16 .rdi
  | .bp => s.addrReg .a16 .rbp
  | .bx => s.addrReg .a16 .rbx

/-- The sum an address form names, before it is cut to the address size; `next` is `pc_next` (R89, R90, R92, R96). -/
def State.formSum (s : State) (a : AddrSize) (next : Word64) : AddrForm → Word64
  | .base b d => s.addrReg a b + dispValue d
  | .sib b x d => s.addrReg a b + s.indexTerm a x + dispValue d
  | .sibNoBase x d => s.indexTerm a x + d.signExtend 64
  | .ripRelative d => next + d.signExtend 64
  | .absolute d => d.signExtend 64
  | .base16 b d => s.base16Term b + disp16Value d
  | .absolute16 d => d.setWidth 64

/-- The effective address of a memory operand: the sum modulo `2^A`, zero-extended (R89, R93). -/
def State.ea (s : State) (next : Word64) (o : MemOperand) : Word64 := cutTo o.asize (s.formSum o.asize next o.form)

end Sys2Proof.Machine
end

