-- ==== Sys2Proof/Machine/Ops.lean ====
section
/-! DEFINITION. The named operations over memory and the instruction stream: the data memory, the read primitive
`MemRead` of R53, raising an exception (R180), fetching an instruction (R26, R55) and the frame of an execution
(R156). -/

namespace Sys2Proof.Machine

/-! ### Results of an access -/

/-- What a part of a step gives: a value, an exception, or a refusal (R13). -/
inductive Access (α : Type) where
  | ok (v : α)
  | fault (f : Fault)
  | refuse (r : Refusal)
  deriving DecidableEq, Repr

/-- The value of an access goes on to the next part; an exception or a refusal ends the instruction (R156). -/
def Access.bind {α β : Type} (x : Access α) (k : α → Access β) : Access β :=
  match x with
  | .ok v => k v
  | .fault f => .fault f
  | .refuse r => .refuse r

/-- Raising an exception, the one way for all five (R180): the outcome is fault with the exception's data, and no state
changes, so that pc still names the faulting instruction. Nothing returns from an exception (R181). -/
def raise (f : Fault) : Host.Outcome State Fault Refusal := .fault f

/-- The state in which a run that raised an exception has stopped: nothing changes but the fault record (R180, R211,
D3). The run keeps it (`observe` in Safety); no step clears it. -/
def State.recordFault (s : State) (f : Fault) : State := { s with faultRecord := some f }

/-- The outcome of a step from what its parts gave. -/
def Access.finish (x : Access State) : Host.Outcome State Fault Refusal :=
  match x with
  | .ok t => .next t
  | .fault f => raise f
  | .refuse r => .refused r

/-! ### Data memory (R50, R57, R58) -/

/-- The byte at a physical address; an address that is not listed holds none (R57, D17; log entry 12). -/
def memGet : List Host.Cell → Nat → Option Byte
  | [], _ => none
  | (a, b) :: m, x => if x = a then some b else memGet m x

/-- A byte put into a memory, in place of the one its address held or in the order of addresses. No instruction writes
memory (R12, R158); the host lays out the launch memory with it (R211). -/
def memSet : List Host.Cell → Nat → Byte → List Host.Cell
  | [], x, v => [(x, v)]
  | (a, b) :: m, x, v =>
    if x < a then (x, v) :: (a, b) :: m else if x = a then (x, v) :: m else (a, b) :: memSet m x v

/-- Bytes put at ascending addresses (R211). -/
def memLoad (m : List Host.Cell) (base : Nat) : List Byte → List Host.Cell
  | [] => m
  | b :: bs => memLoad (memSet m base b) (base + 1) bs

/-- Are all addresses of a memory above `x`, strictly rising? -/
def memAbove (x : Nat) : List Host.Cell → Bool
  | [] => true
  | (a, _) :: m => x < a && memAbove a m

/-- The canonical form: strictly rising addresses. An address that is not listed holds no byte, so no entry equals what
an unlisted address reads as. -/
def Memory.wf : List Host.Cell → Bool
  | [] => true
  | (a, _) :: m => memAbove a m

/-! ### Linear addresses (R59 to R61) -/

/-- What the decoder sees of the state (R103). -/
def State.context (s : State) : CodeContext := { mode := s.mode, csD := s.csD }

/-- `SegBase` in 64-bit mode (R31, R59). -/
def State.segBase64 (s : State) : Seg → Word64
  | .fs => s.fsBase
  | .gs => s.gsBase
  | .es | .cs | .ss | .ds => 0

/-- `Canonical(a)`: bits 63 down to `VA_BITS - 1` are all equal (R60). -/
def State.canonical (s : State) (a : Word64) : Bool :=
  match s.vaBits with
  | .va48 => a.extractLsb' 47 17 == 0 || a.extractLsb' 47 17 == BitVec.allOnes 17
  | .va57 => a.extractLsb' 56 8 == 0 || a.extractLsb' 56 8 == BitVec.allOnes 8

/-- The linear address of byte `k` of an operand at `la`; 32 bits wide in protected and compatibility mode (R51, R53;
log entry 9). -/
def State.byteAddr (s : State) (la : Word64) (k : Nat) : Word64 :=
  match s.mode with
  | .mode64 => la + BitVec.ofNat 64 k
  | .real => la + BitVec.ofNat 64 k
  | .v86 => la + BitVec.ofNat 64 k
  | .compat => cutTo .a32 (la + BitVec.ofNat 64 k)
  | .prot => cutTo .a32 (la + BitVec.ofNat 64 k)

/-- `InSegment(seg, ea, n)` in protected and compatibility mode: every offset of the operand lies in a readable range
(R31, R61, D16; log entry 7). -/
def State.inSegment (s : State) (g : Seg) (ea : Word64) (n : Nat) : Bool :=
  (List.range n).all fun k => (s.segs.get g).readable.any fun r => r.1 ≤ ea.toNat + k && ea.toNat + k ≤ r.2

/-- `LinearReal(seg, ea)` (R59). -/
def State.linearReal (s : State) (g : Seg) (ea : Word64) : Word64 :=
  (s.segs.get g).selector.setWidth 64 <<< 4 + ea

/-- The exception of a failed segment, bound or canonical check (R53, R60, R61). -/
def segmentFault (g : Seg) : Fault := if g = .ss then .ss0 else .gp0

/-- Step 1 of `MemRead`: the segment, bound or canonical check and the linear address (R53). -/
def State.linear (s : State) (g : Seg) (ea : Word64) (n : Nat) : Access Word64 :=
  match s.mode with
  | .mode64 =>
    if 2 ^ 64 < (s.segBase64 g + ea).toNat + n then .refuse .operandWraps
    else if (List.range n).all fun k => s.canonical (s.byteAddr (s.segBase64 g + ea) k) then .ok (s.segBase64 g + ea)
    else .fault (segmentFault g)
  | .real => if 0xFFFF < ea.toNat + n - 1 then .fault (segmentFault g) else .ok (s.linearReal g ea)
  | .v86 => if 0xFFFF < ea.toNat + n - 1 then .fault (segmentFault g) else .ok (s.linearReal g ea)
  | .compat =>
    if s.inSegment g ea n then .ok (cutTo .a32 ((s.segs.get g).base.setWidth 64 + ea)) else .fault (segmentFault g)
  | .prot =>
    if s.inSegment g ea n then .ok (cutTo .a32 ((s.segs.get g).base.setWidth 64 + ea)) else .fault (segmentFault g)

/-! ### Translation (R62, R63, R178) -/

/-- The fault code of a data read: bit 0 P, bit 1 W/R = 0, bit 2 U/S, bit 3 RSVD, bit 4 I/D = 0 (R178). -/
def pageFaultCode (cause : PageFaultCause) (cpl : BitVec 2) : BitVec 32 :=
  ((0 : BitVec 28) ++ BitVec.ofBool cause.reserved ++ BitVec.ofBool (cpl == 3) ++ (0 : BitVec 1) ++
    BitVec.ofBool cause.protection).setWidth 32

/-- The cause of a not-present fault (R62, R178). -/
def notPresent : PageFaultCause := { protection := false, reserved := false }

/-- Does a table entry speak of a linear address at a privilege level? -/
def PageMap.holds (e : PageMap) (la : Nat) (cpl : BitVec 2) : Bool := e.cpl == cpl && e.first ≤ la && la ≤ e.last

/-- `Translate(la, cpl)` (R62, D9; log entry 6). -/
def State.translate (s : State) (la : Word64) : Access Nat :=
  match s.paging with
  | .identity => .ok la.toNat
  | .admitted =>
    if (memGet s.mem la.toNat).isSome then .ok la.toNat else .fault (.pf (pageFaultCode notPresent s.cpl) la)
  | .table entries =>
    match entries.find? fun e => PageMap.holds e la.toNat s.cpl with
    | none => .fault (.pf (pageFaultCode notPresent s.cpl) la)
    | some e =>
      match e.target with
      | .phys base => .ok (base + (la.toNat - e.first))
      | .pageFault cause => .fault (.pf (pageFaultCode cause s.cpl) la)

/-- A physical address in real-address mode, where nothing is translated: the linear address, bit 20 masked or not
(R53, R59, D29; log entry 8). -/
def State.a20 (s : State) (la : Word64) : Nat := if s.a20Masked then (la &&& ~~~0x100000).toNat else la.toNat

/-- The physical address of one byte (R53 step 2). -/
def State.physical (s : State) (la : Word64) : Access Nat :=
  match s.mode with
  | .real => .ok (s.a20 la)
  | .mode64 => s.translate la
  | .compat => s.translate la
  | .prot => s.translate la
  | .v86 => s.translate la

/-- Step 2 of `MemRead`: each byte on its own, the lowest first; the first that faults decides (R53, R63). -/
def State.physicals (s : State) : List Word64 → Access (List Nat)
  | [] => .ok []
  | la :: las => (s.physical la).bind fun p => (s.physicals las).bind fun ps => .ok (p :: ps)

/-! ### The read primitive (R53) -/

/-- The condition of `#AC(0)` for an operand of `n` bytes at `la` (R54, R177). -/
def State.misaligned (s : State) (la : Word64) (n : Nat) : Bool :=
  s.alignCheck && s.cpl == 3 && s.mode != .real && 1 < n && la.toNat % n != 0

/-- The bytes at physical addresses, if the launch memory holds them all (R53 step 4). -/
def memGets (m : List Host.Cell) : List Nat → Option (List Byte)
  | [] => some []
  | p :: ps =>
    match memGet m p, memGets m ps with
    | some b, some bs => some (b :: bs)
    | _, _ => none

/-- `sum over k of byte(k) * 2^(8k)` (R52, R53 step 5). -/
def littleEndian : List Byte → Nat
  | [] => 0
  | b :: bs => b.toNat + 256 * littleEndian bs

/-- Steps 2 to 5 of `MemRead`, once the linear address is known (R53). -/
def State.readLinear (s : State) (la : Word64) (n : Nat) : Access Nat :=
  (s.physicals ((List.range n).map (s.byteAddr la))).bind fun ps =>
    if s.misaligned la n then .fault .ac0
    else
      match memGets s.mem ps with
      | none => .refuse .outsideLaunchMemory
      | some bs => .ok (littleEndian bs)

/-- `MemRead(seg, ea, n)` (R53). It changes no state. -/
def State.memRead (s : State) (g : Seg) (ea : Word64) (n : Nat) : Access Nat :=
  (s.linear g ea n).bind fun la => s.readLinear la n

/-! ### The source operand and the frame of an execution (R156) -/

/-- Step 4 of R156: the `n`-bit view of a register, or `MemRead` of `n/8` bytes. -/
def State.source (s : State) (n : Nat) (view : Reg → BitVec n) (next : Word64) : Source → Access (BitVec n)
  | .reg i => .ok (view i)
  | .mem o => (s.memRead (operandSegment o) (s.ea next o) (n / 8)).bind fun v => .ok (BitVec.ofNat n v)

/-- `pc_next = pc + len` (R92, R156). -/
def State.nextPc (s : State) (f : Form) (lock : Bool) (src : Source) : Word64 :=
  s.pc + BitVec.ofNat 64 (f.len s.context lock src)

/-- Steps 1 to 3 of R156 around a form's own steps: a form that has no encoding in the mode is refused (log entry 19);
`#UD` when SSE4_2 = 0 or a LOCK prefix stands (R171), before any memory access; then the body with `pc_next`. -/
def runForm (f : Form) (lock : Bool) (dst : Reg) (src : Source) (s : State) (body : Word64 → Access State) :
    Host.Outcome State Fault Refusal :=
  if f.wellFormed s.mode dst src then
    if s.sse42 && !lock then (body (s.nextPc f lock src)).finish else raise .ud
  else .refused .notEncodable

/-! ### Fetching an instruction (R26, R55) -/

/-- "`MODE = ModeV86` implies `CPL = 3`; `MODE = ModeReal` implies `CPL = 0`" (R184). -/
def State.coherent (s : State) : Bool :=
  match s.mode with
  | .v86 => s.cpl == 3
  | .real => s.cpl == 0
  | .mode64 => true
  | .compat => true
  | .prot => true

/-- The instruction pointer stays below this bound (R25, R26, D13; log entry 10). -/
def pcLimit : Mode → Nat
  | .mode64 => 2 ^ 64
  | .compat => 2 ^ 32
  | .prot => 2 ^ 32
  | .real => 2 ^ 16
  | .v86 => 2 ^ 16

/-- The program text from pc on (R55): fetch reads the text alone and raises no fault (D14). -/
def State.text (s : State) : List Byte :=
  if s.pc.toNat < s.codeBase.toNat then [] else s.code.drop (s.pc.toNat - s.codeBase.toNat)

/-- Does pc stand just behind the program text (R213)? -/
def State.atEnd (s : State) : Bool := s.pc.toNat == s.codeBase.toNat + s.code.length

/-- The instruction at pc, or why there is none (R26, R103, R184). -/
def State.fetch (s : State) : Access Instr :=
  match s.faultRecord with
  | some f => .fault f
  | none =>
    if !s.coherent then .refuse .incoherentMode
    else if s.atEnd then .refuse .runOver
    else if s.text.isEmpty then .refuse .pcOutsideText
    else
      match decode s.context s.text with
      | .error e => .refuse (.undecodable e)
      | .ok (i, _) =>
        if s.pc.toNat + i.len s.context < pcLimit s.mode then .ok i else .refuse .pcWraps

end Sys2Proof.Machine
end

