-- ==== Sys2Proof/Machine/Crc32.lean ====
section
/-! DEFINITION. `CRC32`, form by form (41_crc32_instructions.md R150 to R155): what each form reads, `Crc32Acc`, the
write of the destination and the advance of pc, inside the execution frame of R156. -/

namespace Sys2Proof.Machine

/-- `CRC32 r32, r/m8` without REX (R150): byte registers AL to BL, AH to BH. -/
def execCrc32R32Rm8 (lock : Bool) (dst : Reg) (src : Source) (s : State) : Host.Outcome State Fault Refusal :=
  runForm .r32rm8 lock dst src s fun next =>
    (s.source 8 (s.r8 · false) next src).bind fun v => .ok ((s.w32 dst (crc32Acc 8 (s.r32 dst) v)).setPc next)

/-- `CRC32 r32, r/m8` with REX, W = 0 (R151): byte registers AL to R15B. -/
def execCrc32R32Rm8Rex (lock : Bool) (dst : Reg) (src : Source) (s : State) : Host.Outcome State Fault Refusal :=
  runForm .r32rm8Rex lock dst src s fun next =>
    (s.source 8 (s.r8 · true) next src).bind fun v => .ok ((s.w32 dst (crc32Acc 8 (s.r32 dst) v)).setPc next)

/-- `CRC32 r32, r/m16` without REX (R152). -/
def execCrc32R32Rm16 (lock : Bool) (dst : Reg) (src : Source) (s : State) : Host.Outcome State Fault Refusal :=
  runForm .r32rm16 lock dst src s fun next =>
    (s.source 16 s.r16 next src).bind fun v => .ok ((s.w32 dst (crc32Acc 16 (s.r32 dst) v)).setPc next)

/-- `CRC32 r32, r/m32` without REX (R153). -/
def execCrc32R32Rm32 (lock : Bool) (dst : Reg) (src : Source) (s : State) : Host.Outcome State Fault Refusal :=
  runForm .r32rm32 lock dst src s fun next =>
    (s.source 32 s.r32 next src).bind fun v => .ok ((s.w32 dst (crc32Acc 32 (s.r32 dst) v)).setPc next)

/-- `CRC32 r64, r/m8` (R154). -/
def execCrc32R64Rm8 (lock : Bool) (dst : Reg) (src : Source) (s : State) : Host.Outcome State Fault Refusal :=
  runForm .r64rm8 lock dst src s fun next =>
    (s.source 8 (s.r8 · true) next src).bind fun v =>
      .ok ((s.w64 dst ((crc32Acc 8 (s.r32 dst) v).setWidth 64)).setPc next)

/-- `CRC32 r64, r/m64` (R155). -/
def execCrc32R64Rm64 (lock : Bool) (dst : Reg) (src : Source) (s : State) : Host.Outcome State Fault Refusal :=
  runForm .r64rm64 lock dst src s fun next =>
    (s.source 64 s.r64 next src).bind fun v =>
      .ok ((s.w64 dst ((crc32Acc 64 (s.r32 dst) v).setWidth 64)).setPc next)

/-- `CRC32 r32, r/m16` with REX, W = 0 (R82, R152). -/
def execCrc32R32Rm16Rex (lock : Bool) (dst : Reg) (src : Source) (s : State) : Host.Outcome State Fault Refusal :=
  runForm .r32rm16Rex lock dst src s fun next =>
    (s.source 16 s.r16 next src).bind fun v => .ok ((s.w32 dst (crc32Acc 16 (s.r32 dst) v)).setPc next)

/-- `CRC32 r32, r/m32` with REX, W = 0 (R82, R153). -/
def execCrc32R32Rm32Rex (lock : Bool) (dst : Reg) (src : Source) (s : State) : Host.Outcome State Fault Refusal :=
  runForm .r32rm32Rex lock dst src s fun next =>
    (s.source 32 s.r32 next src).bind fun v => .ok ((s.w32 dst (crc32Acc 32 (s.r32 dst) v)).setPc next)

end Sys2Proof.Machine
end

