-- ==== Sys2Proof/Machine/Dispatch.lean ====
section
/-! DEFINITION. One arm per constructor of Instr: the direct call of its meaning. -/

namespace Sys2Proof.Machine

def exec (i : Instr) (s : State) : Host.Outcome State Fault Refusal :=
  match i with
  | .crc32R32Rm8 lock dst src => Sys2Proof.Machine.execCrc32R32Rm8 lock dst src s
  | .crc32R32Rm8Rex lock dst src => Sys2Proof.Machine.execCrc32R32Rm8Rex lock dst src s
  | .crc32R32Rm16 lock dst src => Sys2Proof.Machine.execCrc32R32Rm16 lock dst src s
  | .crc32R32Rm32 lock dst src => Sys2Proof.Machine.execCrc32R32Rm32 lock dst src s
  | .crc32R64Rm8 lock dst src => Sys2Proof.Machine.execCrc32R64Rm8 lock dst src s
  | .crc32R64Rm64 lock dst src => Sys2Proof.Machine.execCrc32R64Rm64 lock dst src s
  | .crc32R32Rm16Rex lock dst src => Sys2Proof.Machine.execCrc32R32Rm16Rex lock dst src s
  | .crc32R32Rm32Rex lock dst src => Sys2Proof.Machine.execCrc32R32Rm32Rex lock dst src s

end Sys2Proof.Machine
end

