-- ==== Sys2Proof/Machine/Step.lean ====
section
/-! DEFINITION. One step of the machine (R156), and how an instruction's bytes are put where the next step fetches. -/

namespace Sys2Proof.Machine

/-- One step: fetch and decode the instruction at pc, then execute it (R13, R156). A state whose fault record is not
empty takes no further step (R180). -/
def step (s : State) : Host.Outcome State Fault Refusal :=
  match s.fetch with
  | .ok i => exec i s
  | .fault f => raise f
  | .refuse r => .refused r

/-- The state with a word of the opcode table as its program text, at pc. The program text is loaded from outside the
machine (R211); this stands for that load (log entry 3). -/
def State.withFetchWord (s : State) (nbits w : Nat) : State :=
  { s with codeBase := s.pc, code := tableBytes nbits w }

end Sys2Proof.Machine
end

