-- ==== Sys2Proof/Safety.lean ====
section
/-! DEFINITION. The terms claims use: launch states (R211), the invariant of a run, final states (R213), the observation
of a run (R216), and the spec's other formulations of the function (R132, R135, R140). -/

namespace Sys2Proof.Machine

/-! ### Launch states and the invariant of a run -/

/-- Outside 64-bit mode nothing above bit 31 of a register is state, and R8 to R15 do not exist (R20, R23, D28): those
bits are kept zero. -/
def State.unusedBitsClear (s : State) : Bool :=
  s.mode == .mode64 ||
    ([.rax, .rcx, .rdx, .rbx, .rsp, .rbp, .rsi, .rdi] : List Reg).all (fun r => (s.r64 r).extractLsb' 32 32 == 0) &&
      ([.r8, .r9, .r10, .r11, .r12, .r13, .r14, .r15] : List Reg).all (fun r => s.r64 r == 0)

/-- What holds of a launch state and of every state a run reaches without a fault: the memory is in canonical form, the
mode and CPL fit together (R184), the fault record is empty (R211), pc is an address of the mode (R25), and the bits
that are no state are clear (R20). -/
def State.inv (s : State) : Bool :=
  Memory.wf s.mem && s.coherent && s.faultRecord == none && decide (s.pc.toNat < pcLimit s.mode) && s.unusedBitsClear

/-- A launch state (R211): the invariant, and pc at the entry point `code_base`. -/
def State.isLaunch (s : State) : Bool := s.inv && s.pc == s.codeBase

/-- "A coherent launch state gives the same bytes in both" views (R211): wherever the data memory holds a byte at an
address the program text occupies, it is the text's byte. A premise for claims about a run that reads its own text
(log entry 13). Which physical address byte `k` of the text occupies the spec does not say where Translate is not the
identity or CS has a base; the model takes the number `code_base + k` in every mode (DESIGN CHOICE, log entry 28). -/
def State.textAgrees (s : State) : Bool :=
  (List.range s.code.length).all fun k =>
    match memGet s.mem (s.codeBase.toNat + k) with
    | none => true
    | some b => s.code[k]? == some b

/-! ### The end of a run and its observation -/

/-- "The run is over, in a final state": pc is the end of the text and no fault is recorded (R213). -/
def State.isFinal (s : State) : Bool := s.atEnd && s.faultRecord == none

/-- The kind of outcome a run has (R216); `running` says that the bound of steps was too small. -/
inductive RunKind where
  | final
  | fault (f : Fault)
  | refused (r : Refusal)
  | running
  deriving DecidableEq, Repr

/-- "The observation of a run": the kind of outcome, the general registers, RFLAGS and pc at that moment (R216). -/
structure Observation where
  kind : RunKind
  regs : Gprs
  rflags : Word64
  pc : Word64
  deriving DecidableEq, Repr

/-- A run of at most `k` steps: how it stopped and the state at that moment, in which a fault is recorded (R180, R213). -/
def runFor : Nat → State → RunKind × State
  | 0, s => (.running, s)
  | k + 1, s =>
    match step s with
    | .next t => if t.isFinal then (.final, t) else runFor k t
    | .fault f => (.fault f, s.recordFault f)
    | .refused r => (.refused r, s)

/-- The observation of the run from a launch state; every completed step consumes a byte of the text at least, so the
bound is never reached (R213). -/
def observe (s : State) : Observation :=
  let r := runFor (s.code.length + 1) s
  { kind := r.1, regs := r.2.regs, rflags := r.2.rflags, pc := r.2.pc }

/-! ### Other formulations of the function -/

/-- The sum over `i < k` of bit `i` of `q` times `p` shifted by `i`, sums being xor. -/
def clmulBits (p q : Nat) : Nat → Nat
  | 0 => 0
  | k + 1 => clmulBits p q k ^^^ if q.testBit k then p <<< k else 0

/-- Carry-less multiplication (R132). -/
def clmul (q p : Nat) : Nat := clmulBits p q (q.log2 + 1)

/-- The reflected polynomial `82F63B78H` (R131, R135). -/
def reflectedPolynomial : Word32 := 0x82F63B78

/-- One round of the bit-serial form (R135). -/
def serialRound (c : Word32) (b : Bool) : Word32 :=
  if c.getLsbD 0 ^^ b then c >>> 1 ^^^ reflectedPolynomial else c >>> 1

/-- The bit-serial form: the bits of `s` from bit 0 upward (R135). -/
def crc32Serial (n : Nat) (d : Word32) (s : BitVec n) : Word32 :=
  (List.range n).foldl (fun c i => serialRound c (s.getLsbD i)) d

/-- One round undone (R140). -/
def serialUnround (c : Word32) (b : Bool) : Word32 :=
  (if c.getLsbD 31 then c ^^^ reflectedPolynomial else c) <<< 1 ||| (BitVec.ofBool (c.getLsbD 31 ^^ b)).setWidth 32

/-- The initial value from the result: the rounds undone, the last first (R140). -/
def crc32Undo (n : Nat) (r : Word32) (s : BitVec n) : Word32 :=
  (List.range n).foldr (fun i c => serialUnround c (s.getLsbD i)) r

/-! ### Terms of the claims about encodings -/

/-- The bytes the loop of R103 takes for legacy prefix bytes, F3 among them (R98, R99). -/
def legacySet : List Byte := [0x66, 0x67, 0xF2, 0xF0, 0xF3, 0x26, 0x2E, 0x36, 0x3E, 0x64, 0x65]

/-- The segment override bytes (R94). -/
def overrideSet : List Byte := [0x26, 0x2E, 0x36, 0x3E, 0x64, 0x65]

/-- `40H` to `4FH` (R82). -/
def isRexByte (b : Byte) : Bool := b.extractLsb' 4 4 == 0x4

/-- The refusal of a byte sequence, whatever its name. -/
def refusedBytes (c : CodeContext) (bytes : List Byte) : Prop := ∃ e, decode c bytes = .error e

/-! ### Terms of the claims about executions -/

/-- The state after a completed instruction that left `w` in its destination (R156 steps 7 and 8). -/
def State.after (s : State) (f : Form) (dst : Reg) (src : Source) (w : Word64) : State :=
  { s with regs := s.regs.set dst w, pc := s.pc + BitVec.ofNat 64 (f.len s.context false src) }

/-- The outcome with its next state, if it is one, passed through `g`. -/
def onNext (g : State → State) : Host.Outcome State Fault Refusal → Host.Outcome State Fault Refusal
  | .next t => .next (g t)
  | .fault f => .fault f
  | .refused r => .refused r

/-- An outcome carried over to privilege level `c`: a next state gets that level, a page fault the not-present code of that
level (R178), and any other outcome stays. -/
def atLevel (c : BitVec 2) : Host.Outcome State Fault Refusal → Host.Outcome State Fault Refusal
  | .next t => .next { t with cpl := c }
  | .fault (.pf _ a) => .fault (.pf (if c = 3 then 4 else 0) a)
  | .fault .ud => .fault .ud
  | .fault .ss0 => .fault .ss0
  | .fault .gp0 => .fault .gp0
  | .fault .ac0 => .fault .ac0
  | .refused r => .refused r

/-- The registers an index term reads. -/
def indexRegs : Option Index → List Reg
  | none => []
  | some x => [x.reg]

/-- The registers an address form reads (R24). -/
def formRegs : AddrForm → List Reg
  | .base b _ => [b]
  | .sib b x _ => b :: indexRegs x
  | .sibNoBase x _ => indexRegs x
  | .ripRelative _ => []
  | .absolute _ => []
  | .base16 .bxSi _ => [.rbx, .rsi]
  | .base16 .bxDi _ => [.rbx, .rdi]
  | .base16 .bpSi _ => [.rbp, .rsi]
  | .base16 .bpDi _ => [.rbp, .rdi]
  | .base16 .si _ => [.rsi]
  | .base16 .di _ => [.rdi]
  | .base16 .bp _ => [.rbp]
  | .base16 .bx _ => [.rbx]
  | .absolute16 _ => []

/-- An address size in bits (R93). -/
def addrBits : AddrSize → Nat
  | .a16 => 16 | .a32 => 32 | .a64 => 64

/-- The factor of an index (R90). -/
def scaleFactor : Scale → Nat
  | .x1 => 1 | .x2 => 2 | .x4 => 4 | .x8 => 8

/-- The index term as an exact number (R90). -/
def exactIndex (s : State) : Option Index → Int
  | none => 0
  | some x => (s.r64 x.reg).toNat * scaleFactor x.scale

/-- A displacement as a signed number (R91). -/
def exactDisp : Disp → Int
  | .absent => 0
  | .d8 v => v.toInt
  | .d32 v => v.toInt

def exactDisp16 : Disp16 → Int
  | .absent => 0
  | .d8 v => v.toInt
  | .d16 v => v.toNat

/-- The sum of an address form's terms as an exact number, before any cut to the address size (R89, R90, R92, R96). -/
def exactSum (s : State) (next : Word64) : AddrForm → Int
  | .base b d => (s.r64 b).toNat + exactDisp d
  | .sib b x d => (s.r64 b).toNat + exactIndex s x + exactDisp d
  | .sibNoBase x d => exactIndex s x + d.toInt
  | .ripRelative d => next.toNat + d.toInt
  | .absolute d => d.toInt
  | .base16 .bxSi d => (s.r64 .rbx).toNat + (s.r64 .rsi).toNat + exactDisp16 d
  | .base16 .bxDi d => (s.r64 .rbx).toNat + (s.r64 .rdi).toNat + exactDisp16 d
  | .base16 .bpSi d => (s.r64 .rbp).toNat + (s.r64 .rsi).toNat + exactDisp16 d
  | .base16 .bpDi d => (s.r64 .rbp).toNat + (s.r64 .rdi).toNat + exactDisp16 d
  | .base16 .si d => (s.r64 .rsi).toNat + exactDisp16 d
  | .base16 .di d => (s.r64 .rdi).toNat + exactDisp16 d
  | .base16 .bp d => (s.r64 .rbp).toNat + exactDisp16 d
  | .base16 .bx d => (s.r64 .rbx).toNat + exactDisp16 d
  | .absolute16 d => d.toNat

/-- `VA_BITS` as a number (R60). -/
def vaWidth : VaBits → Nat
  | .va48 => 48
  | .va57 => 57

/-- Is a 64-bit address canonical: in the lower or the upper half of the `VA_BITS` space (R60)? -/
def canonicalNumber (v : VaBits) (a : Nat) : Prop := a < 2 ^ (vaWidth v - 1) ∨ 2 ^ 64 - 2 ^ (vaWidth v - 1) ≤ a

/-- Does an operand of `n` bytes fail the segment, bound or canonical check of its mode (R60, R61)? -/
def State.outside (s : State) (g : Seg) (ea : Word64) (n : Nat) : Prop :=
  match s.mode with
  | .mode64 =>
    (s.segBase64 g + ea).toNat + n ≤ 2 ^ 64 ∧ ∃ k < n, ¬canonicalNumber s.vaBits ((s.segBase64 g + ea).toNat + k)
  | .real => 0xFFFF < ea.toNat + n - 1
  | .v86 => 0xFFFF < ea.toNat + n - 1
  | .compat => ∃ k < n, ∀ r ∈ (s.segs.get g).readable, ¬(r.1 ≤ ea.toNat + k ∧ ea.toNat + k ≤ r.2)
  | .prot => ∃ k < n, ∀ r ∈ (s.segs.get g).readable, ¬(r.1 ≤ ea.toNat + k ∧ ea.toNat + k ≤ r.2)

/-- The effective address of an instruction's memory operand (R156 step 4). -/
def operandEa (i : Instr) (o : MemOperand) (s : State) : Word64 := s.ea (s.nextPc i.form i.lock i.src) o

end Sys2Proof.Machine
end

