-- ==== Sys2Proof/Certificates/Slice0/Obligations.lean ====
section
/-! DEFINITION. The statements for the provers, from the spec's numbered rules. Where a statement rests on a decision or
on general knowledge of the spec, or on a choice of the model, its docstring says so and names the log entry. -/

open Sys2Proof Sys2Proof.Machine

/-! ### Encoding (30_encoding.md) -/

/-- R80 to R98, R103: decoding the bytes of any instruction that has an encoding in the context gives that instruction
back, whatever bytes follow. The layouts are general knowledge of the spec (R82 to R96, N5). -/
def Obligations.DecodeReadsBackEveryEncoding : Prop :=
  ∀ (c : CodeContext) (i : Instr) (rest : List Byte), i.wellFormed c.mode = true →
    decode c (encode c i ++ rest) = .ok (i, rest)

/-- R100, R103: what the decoder accepts has an encoding in the mode, and its length is the number of bytes taken. -/
def Obligations.DecodedInstructionsHaveAnEncoding : Prop :=
  ∀ (c : CodeContext) (bs rest : List Byte) (i : Instr), decode c bs = .ok (i, rest) →
    i.wellFormed c.mode = true ∧ ∃ used : List Byte, bs = used ++ rest ∧ used.length = i.len c

/-- R100: an instruction has 5 to 15 bytes, 14 at most without a LOCK prefix, and each bound is reached by an instruction
that has an encoding. -/
def Obligations.LengthsAreFiveToFifteen : Prop :=
  (∀ (c : CodeContext) (i : Instr), 5 ≤ i.len c ∧ i.len c ≤ 15 ∧ (i.lock = false → i.len c ≤ 14)) ∧
    (∃ (c : CodeContext) (i : Instr), i.wellFormed c.mode = true ∧ i.len c = 5) ∧
      (∃ (c : CodeContext) (i : Instr), i.wellFormed c.mode = true ∧ i.lock = false ∧ i.len c = 14) ∧
        ∃ (c : CodeContext) (i : Instr), i.wellFormed c.mode = true ∧ i.len c = 15

/-- R98 (decision D10): the legacy prefix bytes may stand in any order. -/
def Obligations.LegacyBytesMayStandInAnyOrder : Prop :=
  ∀ (c : CodeContext) (ps qs rest tail : List Byte) (i : Instr), ps.Perm qs → (∀ b ∈ ps, b ∈ legacySet) →
    decode c (ps ++ rest) = .ok (i, tail) → decode c (qs ++ rest) = .ok (i, tail)

/-- R98, R99 (decisions D11, D12): a repeated prefix byte, F3, two segment overrides, and in 64-bit mode an ES, CS, SS or
DS override are refused, whatever follows. -/
def Obligations.RefusedLegacyBytes : Prop :=
  ∀ (c : CodeContext) (ps rest : List Byte), (∀ b ∈ ps, b ∈ legacySet) →
    (¬ps.Nodup → refusedBytes c (ps ++ rest)) ∧
      (0xF3 ∈ ps → refusedBytes c (ps ++ rest)) ∧
        (2 ≤ (ps.filter (· ∈ overrideSet)).length → refusedBytes c (ps ++ rest)) ∧
          (c.mode = .mode64 → (∃ b ∈ ps, b ∈ ([0x26, 0x2E, 0x36, 0x3E] : List Byte)) → refusedBytes c (ps ++ rest))

/-- R82, R99 (decision D30, U1): outside 64-bit mode a byte 40 to 4F after the legacy prefix bytes is refused, and in
64-bit mode it is refused when the next byte is not 0F. -/
def Obligations.RexOnlyRightBeforeTheOpcodeIn64BitMode : Prop :=
  ∀ (c : CodeContext) (ps rest : List Byte) (b : Byte), (∀ b ∈ ps, b ∈ legacySet) → isRexByte b = true →
    (c.mode ≠ .mode64 → refusedBytes c (ps ++ b :: rest)) ∧
      (c.mode = .mode64 → ∀ b' : Byte, b' ≠ 0x0F → refusedBytes c (ps ++ b :: b' :: rest))

/-- R81, R101 (decision D2): without F2 among the legacy prefix bytes nothing is a `CRC32`. -/
def Obligations.WithoutF2NothingDecodes : Prop :=
  ∀ (c : CodeContext) (ps rest : List Byte), (∀ b ∈ ps, b ∈ legacySet) → 0xF2 ∉ ps →
    (∀ b ∈ rest.head?, b ∉ legacySet) → refusedBytes c (ps ++ rest)

/-- R99 (decision D11): 66 with opcode F0, 66 with REX.W = 1, and 67 or a segment override with a register source are
refused. -/
def Obligations.SizePrefixesWithoutMeaningAreRefused : Prop :=
  ∀ (c : CodeContext) (ps rest : List Byte), (∀ b ∈ ps, b ∈ legacySet) →
    (0x66 ∈ ps → ∀ rex : List Byte, rex.length ≤ 1 → (∀ b ∈ rex, isRexByte b = true) →
        refusedBytes c (ps ++ (rex ++ 0x0F :: 0x38 :: 0xF0 :: rest))) ∧
      (0x66 ∈ ps → ∀ b : Byte, isRexByte b = true → b.getLsbD 3 = true →
        refusedBytes c (ps ++ b :: 0x0F :: 0x38 :: 0xF1 :: rest)) ∧
        ((0x67 ∈ ps ∨ ∃ b ∈ ps, b ∈ overrideSet) → ∀ (rex : List Byte) (op modrm : Byte), rex.length ≤ 1 →
          (∀ b ∈ rex, isRexByte b = true) → modrm.extractLsb' 6 2 = 3 →
            refusedBytes c (ps ++ (rex ++ 0x0F :: 0x38 :: op :: modrm :: rest)))

/-- 95_test_vectors.md section 3, R80 to R96: words written out from the encodings, one or more of every row, decode to
the instruction they stand for in 64-bit mode; and so do words in the other four modes, with the operand sizes (R84), the
address sizes (R93), the absolute form (R95), the segment overrides (R94) and every 16-bit form (R96) of code segments of
16 and 32 bits, CS_D having no effect in real-address and virtual-8086 mode (R8). -/
def Obligations.SampleWordsDecode : Prop :=
  let c : CodeContext := { mode := .mode64, csD := .d32 }
  let mem (a : AddrSize) (f : AddrForm) : Source := .mem { asize := a, override := none, form := f }
  decode c [0xF2, 0x0F, 0x38, 0xF0, 0xC7] = .ok (.crc32R32Rm8 false .rax (.reg .rdi), []) ∧
    decode c [0xF2, 0x44, 0x0F, 0x38, 0xF0, 0xC1] = .ok (.crc32R32Rm8Rex false .r8 (.reg .rcx), []) ∧
    decode c [0x66, 0xF2, 0x0F, 0x38, 0xF1, 0x5E, 0x04] =
      .ok (.crc32R32Rm16 false .rbx (mem .a64 (.base .rsi (.d8 4))), []) ∧
    decode c [0xF2, 0x0F, 0x38, 0xF1, 0x05, 0x00, 0x01, 0x00, 0x00] =
      .ok (.crc32R32Rm32 false .rax (mem .a64 (.ripRelative 0x100)), []) ∧
    decode c [0xF2, 0x48, 0x0F, 0x38, 0xF0, 0xC1] = .ok (.crc32R64Rm8 false .rax (.reg .rcx), []) ∧
    decode c [0xF2, 0x4F, 0x0F, 0x38, 0xF1, 0x7C, 0xC8, 0x80] =
      .ok (.crc32R64Rm64 false .r15 (mem .a64 (.sib .r8 (some { reg := .r9, scale := .x8 }) (.d8 0x80))), []) ∧
    decode c [0x66, 0xF2, 0x41, 0x0F, 0x38, 0xF1, 0xC0] = .ok (.crc32R32Rm16Rex false .rax (.reg .r8), []) ∧
    decode c [0xF2, 0x43, 0x0F, 0x38, 0xF1, 0x44, 0x75, 0x00] =
      .ok (.crc32R32Rm32Rex false .rax (mem .a64 (.sib .r13 (some { reg := .r14, scale := .x2 }) (.d8 0))), []) ∧
    (∀ c32 ∈ ([{ mode := .prot, csD := .d32 }, { mode := .compat, csD := .d32 }] : List CodeContext),
      decode c32 [0xF2, 0x0F, 0x38, 0xF1, 0xC1] = .ok (.crc32R32Rm32 false .rax (.reg .rcx), []) ∧
      decode c32 [0x66, 0xF2, 0x0F, 0x38, 0xF1, 0xC1] = .ok (.crc32R32Rm16 false .rax (.reg .rcx), []) ∧
      decode c32 [0xF2, 0x0F, 0x38, 0xF1, 0x05, 0x00, 0x01, 0x00, 0x00] =
        .ok (.crc32R32Rm32 false .rax (mem .a32 (.absolute 0x100)), []) ∧
      decode c32 [0xF2, 0x0F, 0x38, 0xF0, 0x04, 0x8E] =
        .ok (.crc32R32Rm8 false .rax (mem .a32 (.sib .rsi (some { reg := .rcx, scale := .x4 }) .absent)), []) ∧
      decode c32 [0x67, 0xF2, 0x0F, 0x38, 0xF1, 0x40, 0x80] =
        .ok (.crc32R32Rm32 false .rax (mem .a16 (.base16 .bxSi (.d8 0x80))), []) ∧
      decode c32 [0x36, 0xF2, 0x0F, 0x38, 0xF0, 0x06] =
        .ok (.crc32R32Rm8 false .rax (.mem { asize := .a32, override := some .ss, form := .base .rsi .absent }), [])) ∧
    ∀ c16 ∈ ([{ mode := .real, csD := .d16 }, { mode := .real, csD := .d32 }, { mode := .v86, csD := .d16 },
        { mode := .v86, csD := .d32 }, { mode := .prot, csD := .d16 }, { mode := .compat, csD := .d16 }] : List CodeContext),
      decode c16 [0xF2, 0x0F, 0x38, 0xF1, 0xC1] = .ok (.crc32R32Rm16 false .rax (.reg .rcx), []) ∧
      decode c16 [0x66, 0xF2, 0x0F, 0x38, 0xF1, 0xC1] = .ok (.crc32R32Rm32 false .rax (.reg .rcx), []) ∧
      decode c16 [0xF2, 0x0F, 0x38, 0xF0, 0x0E, 0x34, 0x12] =
        .ok (.crc32R32Rm8 false .rcx (mem .a16 (.absolute16 0x1234)), []) ∧
      decode c16 [0xF2, 0x0F, 0x38, 0xF1, 0x87, 0x34, 0x12] =
        .ok (.crc32R32Rm16 false .rax (mem .a16 (.base16 .bx (.d16 0x1234))), []) ∧
      decode c16 [0x67, 0xF2, 0x0F, 0x38, 0xF1, 0x05, 0x00, 0x01, 0x00, 0x00] =
        .ok (.crc32R32Rm16 false .rax (mem .a32 (.absolute 0x100)), []) ∧
      decode c16 [0x67, 0x66, 0xF2, 0x0F, 0x38, 0xF1, 0x46, 0x10] =
        .ok (.crc32R32Rm32 false .rax (mem .a32 (.base .rsi (.d8 0x10))), []) ∧
      ∀ w ∈ ([(0x40, .bxSi), (0x41, .bxDi), (0x42, .bpSi), (0x43, .bpDi), (0x44, .si), (0x45, .di), (0x46, .bp),
          (0x47, .bx)] : List (Byte × Base16)),
        decode c16 [0xF2, 0x0F, 0x38, 0xF0, w.1, 0x10] =
          .ok (.crc32R32Rm8 false .rax (mem .a16 (.base16 w.2 (.d8 0x10))), [])

/-! ### The function (40_crc32_function.md) -/

/-- R130: bit `i` of the reflection is bit `N-1-i`; reflecting twice is the identity; the rule's examples. -/
def Obligations.BitReflectReversesTheBits : Prop :=
  (∀ (n : Nat) (v : BitVec n) (i : Nat), i < n → (bitReflect v).getLsbD i = v.getLsbD (n - 1 - i)) ∧
    (∀ (n : Nat) (v : BitVec n), bitReflect (bitReflect v) = v) ∧
      bitReflect (0x01 : BitVec 8) = 0x80 ∧ bitReflect (0x0F : BitVec 8) = 0xF0 ∧
        bitReflect (0x00000001 : BitVec 32) = 0x80000000 ∧ bitReflect (0x1EDC6F41 : BitVec 32) = 0x82F63B78

/-- R131: the polynomial 11EDC6F41H has the bits the rule lists, its low 32 bits are 1EDC6F41H, and those reflected are
82F63B78H. -/
def Obligations.PolynomialHasTheListedBits : Prop :=
  (∀ i : Nat, polynomial.testBit i = true ↔
      i ∈ ([32, 28, 27, 26, 25, 23, 22, 20, 19, 18, 14, 13, 11, 10, 9, 8, 6, 0] : List Nat)) ∧
    BitVec.ofNat 32 polynomial = 0x1EDC6F41 ∧ bitReflect (0x1EDC6F41 : BitVec 32) = 0x82F63B78

/-- R132, as the spec reads the source's one line on `MOD2`: the remainder has no bit at or above the top bit of the
divisor and differs from the dividend by a carry-less multiple of the divisor, and it is the only such number; by the
polynomial it has 32 bits. -/
def Obligations.Mod2IsTheRemainder : Prop :=
  (∀ a p : Nat, p ≠ 0 →
      (mod2 a p < 2 ^ p.log2 ∧ ∃ q : Nat, a = clmul q p ^^^ mod2 a p) ∧
        ∀ q r : Nat, r < 2 ^ p.log2 → a = clmul q p ^^^ r → r = mod2 a p) ∧
    ∀ a : Nat, mod2 a polynomial < 2 ^ 32

/-- R133: reflect the datum and multiply it by `x^32`, reflect the initial value and multiply it by `x^n`, add, take the
remainder by the polynomial, reflect it; no bit is lost in the shifts, so the rule holds over plain numbers;
`Crc32Acc(n, 0, 0) = 0`. -/
def Obligations.Crc32AccIsTheReflectedRemainder : Prop :=
  (∀ (n : Nat) (d : Word32) (s : BitVec n),
      crc32Acc n d s =
        bitReflect (BitVec.ofNat 32
          (mod2 ((bitReflect s).toNat * 2 ^ 32 ^^^ (bitReflect d).toNat * 2 ^ n) 0x11EDC6F41))) ∧
    ∀ n : Nat, crc32Acc n 0 0 = 0

/-- The spec's own derivation R135 from R130, R132, R133: the bit-serial form computes `Crc32Acc`, at every width. -/
def Obligations.BitSerialFormComputesCrc32Acc : Prop :=
  ∀ (n : Nat) (d : Word32) (s : BitVec n), crc32Acc n d s = crc32Serial n d s

/-- The spec's own derivation R136: accumulating the low bits and then the high bits is accumulating all of them. -/
def Obligations.AccumulatingInPartsComposes : Prop :=
  ∀ (a b : Nat) (d : Word32) (s : BitVec (a + b)),
    crc32Acc (a + b) d s = crc32Acc b (crc32Acc a d (s.extractLsb' 0 a)) (s.extractLsb' a b)

/-- The spec's own derivation R137: `Crc32Acc` is linear over xor. -/
def Obligations.Crc32AccIsLinear : Prop :=
  (∀ (n : Nat) (d d' : Word32) (s s' : BitVec n),
      crc32Acc n (d ^^^ d') (s ^^^ s') = crc32Acc n d s ^^^ crc32Acc n d' s') ∧
    ∀ (n : Nat) (d : Word32) (s : BitVec n), crc32Acc n d s = crc32Acc n d 0 ^^^ crc32Acc n 0 s

/-- The spec's own derivation R138: the initial value folds into the datum. -/
def Obligations.InitialValueFoldsIntoTheDatum : Prop :=
  (∀ (n : Nat) (d : Word32) (s : BitVec n), n ≤ 32 → crc32Acc n d s = crc32Acc n (d ^^^ s.setWidth 32) 0) ∧
    (∀ d s : BitVec 32, crc32Acc 32 d s = crc32Acc 32 0 (d ^^^ s)) ∧
      (∀ (d : Word32) (s : BitVec 64), crc32Acc 64 d s = crc32Acc 64 0 (s ^^^ d.setWidth 64)) ∧
        ∀ d : Word32, crc32Acc 32 d d = 0

/-- The spec's own derivation R139: the table form of a byte's accumulation. -/
def Obligations.TableFormOfAByte : Prop :=
  ∀ (d : Word32) (s : Byte),
    crc32Acc 8 d s = d >>> 8 ^^^ crc32Acc 8 0 ((d ^^^ s.setWidth 32).extractLsb' 0 8)

/-- The spec's own derivation R140: for fixed data the initial value is a bijection to the result, and undoing the rounds
of the bit-serial form gives it back. -/
def Obligations.InitialValueIsRecoverable : Prop :=
  (∀ (n : Nat) (s : BitVec n), Function.Bijective fun d : Word32 => crc32Acc n d s) ∧
    ∀ (n : Nat) (d : Word32) (s : BitVec n), crc32Undo n (crc32Acc n d s) s = d

/-- R141 (general knowledge of the spec): the nine bytes "123456789" from FFFFFFFFH accumulate to 1CF96D7CH. -/
def Obligations.CheckValueOfNineBytes : Prop :=
  ([0x31, 0x32, 0x33, 0x34, 0x35, 0x36, 0x37, 0x38, 0x39] : List Byte).foldl (fun d b => crc32Acc 8 d b) 0xFFFFFFFF =
    0x1CF96D7C

/-! ### Registers and addresses (10_state.md, 30_encoding.md) -/

/-- R21, R22, R88 (general knowledge of the spec): with a REX byte every number names the low byte of its register;
without one numbers 0 to 3 do, and 4 to 7 name AH, CH, DH, BH. -/
def Obligations.ByteRegisterNames : Prop :=
  ∀ s : State,
    (∀ i : Reg, s.r8 i true = (s.regs.get i).extractLsb' 0 8) ∧
      (∀ i : Reg, i.num < 4 → s.r8 i false = (s.regs.get i).extractLsb' 0 8) ∧
        s.r8 .rsp false = s.regs.rax.extractLsb' 8 8 ∧ s.r8 .rbp false = s.regs.rcx.extractLsb' 8 8 ∧
          s.r8 .rsi false = s.regs.rdx.extractLsb' 8 8 ∧ s.r8 .rdi false = s.regs.rbx.extractLsb' 8 8

/-- R11, R23 (decision D21, log entry 15): writing a 32-bit destination writes bits 31:0 in every mode, clears bits 63:32
in 64-bit mode, and leaves every other register. That the other modes keep bits 63:32, which are no state there, is the
model's choice (DESIGN CHOICE, log entry 17). -/
def Obligations.WritingA32BitDestination : Prop :=
  ∀ (s : State) (i : Reg) (v : Word32),
    ((s.w32 i v).regs.get i).extractLsb' 0 32 = v ∧
      (s.mode = .mode64 → ((s.w32 i v).regs.get i).extractLsb' 32 32 = 0) ∧
        (s.mode ≠ .mode64 → ((s.w32 i v).regs.get i).extractLsb' 32 32 = (s.regs.get i).extractLsb' 32 32) ∧
          ∀ j : Reg, j ≠ i → (s.w32 i v).regs.get j = s.regs.get j

/-- R89, R90, R92, R93, R95, R96 (general knowledge of the spec): the effective address of every operand that has an
encoding is the exact sum of its terms modulo 2 to the address size. -/
def Obligations.EffectiveAddressIsTheSumModuloTheAddressSize : Prop :=
  ∀ (s : State) (rex : Bool) (next : Word64) (o : MemOperand), o.wellFormed s.mode rex = true →
    ((s.ea next o).toNat : Int) = exactSum s next o.form % 2 ^ addrBits o.asize

/-- R94, R96 (general knowledge of the spec): the segment is the override; else SS for a base register 4 or 5 or a 16-bit
form with BP; else DS. -/
def Obligations.SegmentOfAnOperand : Prop :=
  (∀ (o : MemOperand) (g : Seg), o.override = some g → operandSegment o = g) ∧
    ∀ o : MemOperand, o.override = none →
      match o.form with
      | .base b _ => operandSegment o = if b.num = 4 ∨ b.num = 5 then .ss else .ds
      | .sib b _ _ => operandSegment o = if b.num = 4 ∨ b.num = 5 then .ss else .ds
      | .sibNoBase _ _ => operandSegment o = .ds
      | .ripRelative _ => operandSegment o = .ds
      | .absolute _ => operandSegment o = .ds
      | .base16 b _ => operandSegment o = if b = .bpSi ∨ b = .bpDi ∨ b = .bp then .ss else .ds
      | .absolute16 _ => operandSegment o = .ds

/-! ### Memory (20_memory.md) -/

/-- R59 (general knowledge of the spec; D16, D29): the linear address an operand gets in each mode. -/
def Obligations.LinearAddressOfAnOperand : Prop :=
  ∀ (s : State) (g : Seg) (ea la : Word64) (n : Nat), 1 ≤ n → s.linear g ea n = .ok la →
    match s.mode with
    | .mode64 =>
      la.toNat = ((if g = .fs then s.fsBase.toNat else if g = .gs then s.gsBase.toNat else 0) + ea.toNat) % 2 ^ 64
    | .real => la.toNat = (s.segs.get g).selector.toNat * 16 + ea.toNat
    | .v86 => la.toNat = (s.segs.get g).selector.toNat * 16 + ea.toNat
    | .compat => la.toNat = ((s.segs.get g).base.toNat + ea.toNat) % 2 ^ 32
    | .prot => la.toNat = ((s.segs.get g).base.toNat + ea.toNat) % 2 ^ 32

/-- R53 step 2, R62 (decision D9; that Translate is one of these three forms of plain data is the model's choice, log
entry 6): the physical address of a byte. In real-address mode it is the linear address, bit 20 cleared if the A20 flag of
the model says so (D29; the model's choice, log entry 8); elsewhere it is what Translate answers. The identity Translate
answers the linear address, the default answers it for a byte of the launch memory, and a table answers by its first entry
that holds the address at the privilege level. -/
def Obligations.PhysicalAddressOfAByte : Prop :=
  ∀ (s : State) (la : Word64),
    (s.mode = .real → s.physical la = .ok (la.toNat - if s.a20Masked = true ∧ la.getLsbD 20 = true then 2 ^ 20 else 0)) ∧
      (s.mode ≠ .real → s.physical la = s.translate la) ∧
        (s.paging = .identity → s.translate la = .ok la.toNat) ∧
          (∀ b : Byte, s.paging = .admitted → memGet s.mem la.toNat = some b → s.translate la = .ok la.toNat) ∧
            ∀ es : List PageMap, s.paging = .table es →
              (∀ (before after : List PageMap) (e : PageMap), es = before ++ e :: after →
                  (∀ x ∈ before, ¬(x.cpl = s.cpl ∧ x.first ≤ la.toNat ∧ la.toNat ≤ x.last)) →
                    e.cpl = s.cpl → e.first ≤ la.toNat → la.toNat ≤ e.last →
                      (∀ base : Nat, e.target = .phys base → s.translate la = .ok (base + (la.toNat - e.first))) ∧
                        ∀ cause : PageFaultCause, e.target = .pageFault cause →
                          s.translate la = .fault (.pf (pageFaultCode cause s.cpl) la)) ∧
                ((∀ x ∈ es, ¬(x.cpl = s.cpl ∧ x.first ≤ la.toNat ∧ la.toNat ≤ x.last)) →
                  s.translate la = .fault (.pf (if s.cpl = 3 then 4 else 0) la))

/-- R52, R53 (decision D20, log entry 16): a read whose checks pass, whose bytes all translate and are all in the launch
memory completes with their little-endian value. -/
def Obligations.ReadCompletesWithTheLittleEndianValue : Prop :=
  ∀ (s : State) (g : Seg) (ea la : Word64) (n : Nat) (p : Nat → Nat) (b : Nat → Byte),
    s.linear g ea n = .ok la → (∀ k < n, s.physical (s.byteAddr la k) = .ok (p k)) →
      (∀ k < n, memGet s.mem (p k) = some (b k)) → s.misaligned la n = false →
        s.memRead g ea n = .ok (∑ k ∈ Finset.range n, (b k).toNat * 2 ^ (8 * k))

/-- R52: "A mixed-width access sees the same bytes": byte `k` of a wide read is the byte read at `k` beyond (an offset
that would wrap past 2^64 cannot arise outside 64-bit mode, where offsets have 32 bits; log entry 9). -/
def Obligations.WideReadsSeeTheSameBytes : Prop :=
  ∀ (s : State) (g : Seg) (ea : Word64) (n k v : Nat), s.mode = .mode64 ∨ ea.toNat + n ≤ 2 ^ 64 → k < n →
    s.memRead g ea n = .ok v → s.memRead g (ea + BitVec.ofNat 64 k) 1 = .ok (v / 256 ^ k % 256)

/-- R53, R57 (decisions D17, D18): a read is refused in two cases only: in 64-bit mode when the operand runs past 2^64,
and when every check passed and a byte is not in the launch memory. -/
def Obligations.ReadRefusalsExactly : Prop :=
  ∀ (s : State) (g : Seg) (ea : Word64) (n : Nat) (r : Refusal),
    s.memRead g ea n = .refuse r ↔
      (r = .operandWraps ∧ s.mode = .mode64 ∧ 2 ^ 64 < (s.segBase64 g + ea).toNat + n) ∨
        (r = .outsideLaunchMemory ∧ ∃ (la : Word64) (p : Nat → Nat), s.linear g ea n = .ok la ∧
          (∀ k < n, s.physical (s.byteAddr la k) = .ok (p k)) ∧ s.misaligned la n = false ∧
            ∃ k < n, memGet s.mem (p k) = none)

/-! ### Exceptions (60_exceptions.md) -/

/-- R171: of an instruction that has an encoding, `#UD` is raised exactly when SSE4_2 = 0 or a LOCK prefix stands,
whatever the source operand and whatever the memory holds; and of decoded bytes, a LOCK prefix stands exactly when F0 is
among the legacy prefix bytes. -/
def Obligations.InvalidOpcodeExactly : Prop :=
  (∀ (i : Instr) (s : State), i.wellFormed s.mode = true →
      (exec i s = .fault .ud ↔ s.sse42 = false ∨ i.lock = true)) ∧
    ∀ (c : CodeContext) (ps rest tail : List Byte) (i : Instr), (∀ b ∈ ps, b ∈ legacySet) →
      (∀ b ∈ rest.head?, b ∉ legacySet) → decode c (ps ++ rest) = .ok (i, tail) → (i.lock = true ↔ 0xF0 ∈ ps)

/-- R60, R61, R172 to R176 (the definitions of canonical form and of the segment checks are general knowledge and
decisions D16, D18; log entry 7): a memory source raises `#SS(0)` exactly when it goes through SS and fails its mode's
segment, bound or canonical check, and `#GP(0)` exactly when it goes through another segment and fails it. -/
def Obligations.SegmentFaultsExactly : Prop :=
  ∀ (i : Instr) (s : State) (o : MemOperand), i.wellFormed s.mode = true → i.src = .mem o → s.sse42 = true →
    i.lock = false →
      (exec i s = .fault .ss0 ↔
          operandSegment o = .ss ∧ s.outside (operandSegment o) (operandEa i o s) i.form.srcBytes) ∧
        (exec i s = .fault .gp0 ↔
          operandSegment o ≠ .ss ∧ s.outside (operandSegment o) (operandEa i o s) i.form.srcBytes)

/-- R62, R63, R179 (decisions D4, D9, D26): a memory source raises `#PF` exactly when its segment check passes and a byte
does not translate; the fault is that of the lowest such byte and carries its address. -/
def Obligations.PageFaultsExactly : Prop :=
  ∀ (i : Instr) (s : State) (o : MemOperand) (code : BitVec 32) (a : Word64), i.wellFormed s.mode = true →
    i.src = .mem o → s.sse42 = true → i.lock = false →
      (exec i s = .fault (.pf code a) ↔
        ∃ (la : Word64) (k : Nat), s.linear (operandSegment o) (operandEa i o s) i.form.srcBytes = .ok la ∧
          k < i.form.srcBytes ∧ a = s.byteAddr la k ∧ s.physical a = .fault (.pf code a) ∧
            ∀ j < k, ∃ p, s.physical (s.byteAddr la j) = .ok p)

/-- R62, R178 (general knowledge of the spec; log entry 23): the code of a page fault has bits 1 and 4 clear, bit 2 set
exactly when CPL = 3, and nothing above bit 3; under the default Translate an address not in the launch memory gives 4 at
CPL = 3 and 0 otherwise. -/
def Obligations.PageFaultCodes : Prop :=
  (∀ (s : State) (la : Word64) (f : Fault), s.translate la = .fault f →
      ∃ code : BitVec 32, f = .pf code la ∧ code.getLsbD 1 = false ∧ code.getLsbD 4 = false ∧
        code.getLsbD 2 = (s.cpl == 3) ∧ code.toNat < 16) ∧
    ∀ (s : State) (la : Word64), s.paging = .admitted → memGet s.mem la.toNat = none →
      s.translate la = .fault (.pf (if s.cpl = 3 then 4 else 0) la)

/-- R54, R177, R179 (decisions D4, D19; general knowledge R30): a memory source raises `#AC(0)` exactly when its segment
check passes, every byte translates, CR0.AM and RFLAGS.AC are 1, CPL is 3, the mode is not real-address mode, and the
linear address is no multiple of the operand's size, which is more than one byte. -/
def Obligations.AlignmentCheckExactly : Prop :=
  ∀ (i : Instr) (s : State) (o : MemOperand), i.wellFormed s.mode = true → i.src = .mem o → s.sse42 = true →
    i.lock = false →
      (exec i s = .fault .ac0 ↔
        ∃ la : Word64, s.linear (operandSegment o) (operandEa i o s) i.form.srcBytes = .ok la ∧
          (∀ k < i.form.srcBytes, ∃ p, s.physical (s.byteAddr la k) = .ok p) ∧ s.cr0AM = true ∧
            s.rflags.getLsbD 18 = true ∧ s.cpl = 3 ∧ s.mode ≠ .real ∧ 1 < i.form.srcBytes ∧
              la.toNat % i.form.srcBytes ≠ 0)

/-- R173: in real-address mode the only exceptions are `#UD`, `#GP(0)` and `#SS(0)`. -/
def Obligations.RealAddressModeExceptions : Prop :=
  ∀ (i : Instr) (s : State) (f : Fault), s.mode = .real → exec i s = .fault f → f = .ud ∨ f = .gp0 ∨ f = .ss0

/-- R172, R170: a register source raises none of the memory exceptions; when such an instruction faults, it is `#UD`. -/
def Obligations.RegisterSourceRaisesOnlyInvalidOpcode : Prop :=
  ∀ (i : Instr) (s : State) (r : Reg) (f : Fault), i.src = .reg r → exec i s = .fault f → f = .ud

/-! ### The six forms complete (41_crc32_instructions.md) -/

/-- R150: with SSE4_2 = 1 and no LOCK prefix, `CRC32 r32, r/m8` without REX completes, from a byte register named without
REX and from a readable byte of memory, with the accumulated value in its 32-bit destination and pc behind it. -/
def Obligations.CompletesR32Rm8 : Prop :=
  ∀ (s : State) (dst : Reg), s.sse42 = true →
    (∀ r : Reg, Form.wellFormed s.mode .r32rm8 dst (.reg r) = true →
        exec (.crc32R32Rm8 false dst (.reg r)) s =
          .next (s.after .r32rm8 dst (.reg r)
            (write32 s.mode (s.r64 dst) (crc32Acc 8 (s.r32 dst) (s.r8 r false))))) ∧
      ∀ (o : MemOperand) (v : Nat), Form.wellFormed s.mode .r32rm8 dst (.mem o) = true →
        s.memRead (operandSegment o) (s.ea (s.nextPc .r32rm8 false (.mem o)) o) 1 = .ok v →
          exec (.crc32R32Rm8 false dst (.mem o)) s =
            .next (s.after .r32rm8 dst (.mem o)
              (write32 s.mode (s.r64 dst) (crc32Acc 8 (s.r32 dst) (BitVec.ofNat 8 v))))

/-- R151: the same for `CRC32 r32, r/m8` with a REX byte, in 64-bit mode, with the byte registers named with REX. -/
def Obligations.CompletesR32Rm8Rex : Prop :=
  ∀ (s : State) (dst : Reg), s.mode = .mode64 → s.sse42 = true →
    (∀ r : Reg,
        exec (.crc32R32Rm8Rex false dst (.reg r)) s =
          .next (s.after .r32rm8Rex dst (.reg r) ((crc32Acc 8 (s.r32 dst) ((s.r64 r).extractLsb' 0 8)).setWidth 64))) ∧
      ∀ (o : MemOperand) (v : Nat), Form.wellFormed .mode64 .r32rm8Rex dst (.mem o) = true →
        s.memRead (operandSegment o) (s.ea (s.nextPc .r32rm8Rex false (.mem o)) o) 1 = .ok v →
          exec (.crc32R32Rm8Rex false dst (.mem o)) s =
            .next (s.after .r32rm8Rex dst (.mem o) ((crc32Acc 8 (s.r32 dst) (BitVec.ofNat 8 v)).setWidth 64))

/-- R152: `CRC32 r32, r/m16` without REX, in every mode. -/
def Obligations.CompletesR32Rm16 : Prop :=
  ∀ (s : State) (dst : Reg), s.sse42 = true →
    (∀ r : Reg, Form.wellFormed s.mode .r32rm16 dst (.reg r) = true →
        exec (.crc32R32Rm16 false dst (.reg r)) s =
          .next (s.after .r32rm16 dst (.reg r)
            (write32 s.mode (s.r64 dst) (crc32Acc 16 (s.r32 dst) ((s.r64 r).extractLsb' 0 16))))) ∧
      ∀ (o : MemOperand) (v : Nat), Form.wellFormed s.mode .r32rm16 dst (.mem o) = true →
        s.memRead (operandSegment o) (s.ea (s.nextPc .r32rm16 false (.mem o)) o) 2 = .ok v →
          exec (.crc32R32Rm16 false dst (.mem o)) s =
            .next (s.after .r32rm16 dst (.mem o)
              (write32 s.mode (s.r64 dst) (crc32Acc 16 (s.r32 dst) (BitVec.ofNat 16 v))))

/-- R153: `CRC32 r32, r/m32` without REX, in every mode. -/
def Obligations.CompletesR32Rm32 : Prop :=
  ∀ (s : State) (dst : Reg), s.sse42 = true →
    (∀ r : Reg, Form.wellFormed s.mode .r32rm32 dst (.reg r) = true →
        exec (.crc32R32Rm32 false dst (.reg r)) s =
          .next (s.after .r32rm32 dst (.reg r)
            (write32 s.mode (s.r64 dst) (crc32Acc 32 (s.r32 dst) ((s.r64 r).extractLsb' 0 32))))) ∧
      ∀ (o : MemOperand) (v : Nat), Form.wellFormed s.mode .r32rm32 dst (.mem o) = true →
        s.memRead (operandSegment o) (s.ea (s.nextPc .r32rm32 false (.mem o)) o) 4 = .ok v →
          exec (.crc32R32Rm32 false dst (.mem o)) s =
            .next (s.after .r32rm32 dst (.mem o)
              (write32 s.mode (s.r64 dst) (crc32Acc 32 (s.r32 dst) (BitVec.ofNat 32 v))))

/-- R154: `CRC32 r64, r/m8` in 64-bit mode; bits 63:32 of the destination end as zero. -/
def Obligations.CompletesR64Rm8 : Prop :=
  ∀ (s : State) (dst : Reg), s.mode = .mode64 → s.sse42 = true →
    (∀ r : Reg,
        exec (.crc32R64Rm8 false dst (.reg r)) s =
          .next (s.after .r64rm8 dst (.reg r) ((crc32Acc 8 (s.r32 dst) ((s.r64 r).extractLsb' 0 8)).setWidth 64))) ∧
      ∀ (o : MemOperand) (v : Nat), Form.wellFormed .mode64 .r64rm8 dst (.mem o) = true →
        s.memRead (operandSegment o) (s.ea (s.nextPc .r64rm8 false (.mem o)) o) 1 = .ok v →
          exec (.crc32R64Rm8 false dst (.mem o)) s =
            .next (s.after .r64rm8 dst (.mem o) ((crc32Acc 8 (s.r32 dst) (BitVec.ofNat 8 v)).setWidth 64))

/-- R155: `CRC32 r64, r/m64` in 64-bit mode; bits 63:32 of the destination end as zero. -/
def Obligations.CompletesR64Rm64 : Prop :=
  ∀ (s : State) (dst : Reg), s.mode = .mode64 → s.sse42 = true →
    (∀ r : Reg,
        exec (.crc32R64Rm64 false dst (.reg r)) s =
          .next (s.after .r64rm64 dst (.reg r) ((crc32Acc 64 (s.r32 dst) (s.r64 r)).setWidth 64))) ∧
      ∀ (o : MemOperand) (v : Nat), Form.wellFormed .mode64 .r64rm64 dst (.mem o) = true →
        s.memRead (operandSegment o) (s.ea (s.nextPc .r64rm64 false (.mem o)) o) 8 = .ok v →
          exec (.crc32R64Rm64 false dst (.mem o)) s =
            .next (s.after .r64rm64 dst (.mem o) ((crc32Acc 64 (s.r32 dst) (BitVec.ofNat 64 v)).setWidth 64))

/-- R82, R152 (general knowledge of the spec, N3): `CRC32 r32, r/m16` with a REX byte, in 64-bit mode. -/
def Obligations.CompletesR32Rm16Rex : Prop :=
  ∀ (s : State) (dst : Reg), s.mode = .mode64 → s.sse42 = true →
    (∀ r : Reg,
        exec (.crc32R32Rm16Rex false dst (.reg r)) s =
          .next (s.after .r32rm16Rex dst (.reg r)
            ((crc32Acc 16 (s.r32 dst) ((s.r64 r).extractLsb' 0 16)).setWidth 64))) ∧
      ∀ (o : MemOperand) (v : Nat), Form.wellFormed .mode64 .r32rm16Rex dst (.mem o) = true →
        s.memRead (operandSegment o) (s.ea (s.nextPc .r32rm16Rex false (.mem o)) o) 2 = .ok v →
          exec (.crc32R32Rm16Rex false dst (.mem o)) s =
            .next (s.after .r32rm16Rex dst (.mem o) ((crc32Acc 16 (s.r32 dst) (BitVec.ofNat 16 v)).setWidth 64))

/-- R82, R153 (general knowledge of the spec, N3): `CRC32 r32, r/m32` with a REX byte, in 64-bit mode. -/
def Obligations.CompletesR32Rm32Rex : Prop :=
  ∀ (s : State) (dst : Reg), s.mode = .mode64 → s.sse42 = true →
    (∀ r : Reg,
        exec (.crc32R32Rm32Rex false dst (.reg r)) s =
          .next (s.after .r32rm32Rex dst (.reg r)
            ((crc32Acc 32 (s.r32 dst) ((s.r64 r).extractLsb' 0 32)).setWidth 64))) ∧
      ∀ (o : MemOperand) (v : Nat), Form.wellFormed .mode64 .r32rm32Rex dst (.mem o) = true →
        s.memRead (operandSegment o) (s.ea (s.nextPc .r32rm32Rex false (.mem o)) o) 4 = .ok v →
          exec (.crc32R32Rm32Rex false dst (.mem o)) s =
            .next (s.after .r32rm32Rex dst (.mem o) ((crc32Acc 32 (s.r32 dst) (BitVec.ofNat 32 v)).setWidth 64))

/-- R80, U1 (the model's choice, log entry 19): a form that has no encoding in the mode is refused by its meaning, which
no step reaches. -/
def Obligations.FormsWithoutEncodingAreRefused : Prop :=
  ∀ (i : Instr) (s : State), i.wellFormed s.mode = false → exec i s = .refused .notEncodable

/-! ### What an execution leaves alone -/

/-- R158: a completed `CRC32` writes one general register, its destination, and pc: no other register, no flag, no
memory byte, no segment register, no control register, nothing else of the state; and it reads no status flag. -/
def Obligations.FrameOfEveryForm : Prop :=
  (∀ (i : Instr) (s t : State), exec i s = .next t →
      (∀ r : Reg, r ≠ i.dst → t.regs.get r = s.regs.get r) ∧ t.rflags = s.rflags ∧
        (∀ a : Nat, memGet t.mem a = memGet s.mem a) ∧ t.segs = s.segs ∧ t.cr0AM = s.cr0AM ∧
          t = { s with regs := t.regs, pc := t.pc }) ∧
    ∀ (i : Instr) (s : State) (b : FlagBit) (v : Bool), b ≠ .ac →
      let s' : State := { s with rflags := if v then s.rflags ||| (1 : Word64) <<< b.pos else s.rflags &&& ~~~((1 : Word64) <<< b.pos) }
      exec i s' = onNext (fun t => { t with rflags := s'.rflags }) (exec i s)

/-- R27, R30 (the flags' positions and the formula of the alignment check are general knowledge of the spec): a completed
`CRC32` leaves RFLAGS as it was, whatever the result, and behaves the same under any RFLAGS with the same bit 18 (AC); AC
does matter, to the alignment check. -/
def Obligations.RflagsIsNotWrittenAndOnlyAcIsRead : Prop :=
  (∀ (i : Instr) (s t : State), exec i s = .next t → t.rflags = s.rflags) ∧
    (∀ (i : Instr) (s : State) (f : Word64), f.getLsbD 18 = s.rflags.getLsbD 18 →
      exec i { s with rflags := f } = onNext (fun t => { t with rflags := f }) (exec i s)) ∧
      (∃ (i : Instr) (s t : State), exec i s = .next t ∧ exec i { s with rflags := s.rflags ||| 0x40000 } = .fault .ac0) ∧
        ∀ s : State,
          (s.flag .cf = s.rflags.getLsbD 0 ∧ s.flag .pf = s.rflags.getLsbD 2 ∧ s.flag .af = s.rflags.getLsbD 4 ∧
            s.flag .zf = s.rflags.getLsbD 6 ∧ s.flag .sf = s.rflags.getLsbD 7 ∧ s.flag .of = s.rflags.getLsbD 11 ∧
              s.flag .ac = s.rflags.getLsbD 18) ∧
            (s.alignCheck = true ↔ s.cr0AM = true ∧ s.flag .ac = true)

/-- R157 (with decision D21 for the r32 forms, log entry 15): in 64-bit mode bits 63:32 of the destination before the
instruction have no effect on anything, unless the source operand itself reads them, and are zero after it. The source
reads them when it is the same register at 64 bits, or memory of address size 64 with that base or index; an address of
32 bits reads bits 31:0 alone (R93). -/
def Obligations.UpperHalfOfTheDestinationIsIgnored : Prop :=
  (∀ (i : Instr) (s : State) (x : Word64), s.mode = .mode64 →
      x.extractLsb' 0 32 = (s.r64 i.dst).extractLsb' 0 32 →
        (match i.src with
          | .reg r => r ≠ i.dst ∨ i.form ≠ .r64rm64
          | .mem o => i.dst ∉ formRegs o.form ∨ o.asize ≠ .a64) →
          exec i { s with regs := s.regs.set i.dst x } = exec i s) ∧
    ∀ (i : Instr) (s t : State), s.mode = .mode64 → exec i s = .next t → (t.regs.get i.dst).extractLsb' 32 32 = 0

/-- R159 (the spec's own derivation): the destination may be the source or an address register, and every read sees the
values from before: `crc32 r32, r32` of one register leaves 0, `crc32 eax, al` leaves EAX >> 8, `crc32 eax, ah` reads the
old AH, `crc32 rax, qword ptr [rax]` reads memory at the old RAX and accumulates on the old EAX. -/
def Obligations.OverlappingOperandsReadOldValues : Prop :=
  (∀ (s : State) (r : Reg), s.sse42 = true → Form.wellFormed s.mode .r32rm32 r (.reg r) = true →
      exec (.crc32R32Rm32 false r (.reg r)) s = .next (s.after .r32rm32 r (.reg r) (write32 s.mode (s.r64 r) 0))) ∧
    (∀ s : State, s.sse42 = true →
      exec (.crc32R32Rm8 false .rax (.reg .rax)) s =
        .next (s.after .r32rm8 .rax (.reg .rax) (write32 s.mode (s.r64 .rax) (s.r32 .rax >>> 8)))) ∧
      (∀ s : State, s.sse42 = true →
        exec (.crc32R32Rm8 false .rax (.reg .rsp)) s =
          .next (s.after .r32rm8 .rax (.reg .rsp)
            (write32 s.mode (s.r64 .rax) (crc32Acc 8 (s.r32 .rax) ((s.r64 .rax).extractLsb' 8 8))))) ∧
        ∀ (s : State) (v : Nat), s.mode = .mode64 → s.sse42 = true → s.memRead .ds (s.r64 .rax) 8 = .ok v →
          let src : Source := .mem { asize := .a64, override := none, form := .base .rax .absent }
          exec (.crc32R64Rm64 false .rax src) s =
            .next (s.after .r64rm64 .rax src ((crc32Acc 64 (s.r32 .rax) (BitVec.ofNat 64 v)).setWidth 64))

/-- R162, R178, R184: the privilege level enters the alignment check and Translate alone. With alignment checking off, or
both levels below 3, and without a page table, an execution has the same outcome at every level, whether it completes,
faults or is refused, but for the code of a page fault, which is 4 at level 3 and 0 at the others. -/
def Obligations.PrivilegeLevelChangesOnlyPageFaultCodes : Prop :=
  ∀ (i : Instr) (s : State) (c : BitVec 2), (s.alignCheck = false ∨ (s.cpl ≠ 3 ∧ c ≠ 3)) → (∀ es, s.paging ≠ .table es) →
    exec i { s with cpl := c } = atLevel c (exec i s)

/-- R154 (the spec's own derivation from R150, R154 and R23): with the same operands the r64, r/m8 form gives the same
outcome as the r32, r/m8 form with a REX byte. -/
def Obligations.ByteFormsAgreeAtBothDestinationWidths : Prop :=
  ∀ (lock : Bool) (dst : Reg) (src : Source) (s : State),
    exec (.crc32R64Rm8 lock dst src) s = exec (.crc32R32Rm8Rex lock dst src) s

/-! ### Steps and runs -/

/-- R103, R156, R26: when no fault is recorded, mode and CPL are coherent, pc is inside the text, the bytes at pc decode
to an instruction, and pc stays below the mode's limit (log entry 10), the step is the execution of that instruction. -/
def Obligations.StepRunsTheDecodedInstruction : Prop :=
  ∀ (s : State) (i : Instr) (rest : List Byte), s.faultRecord = none → s.coherent = true →
    s.codeBase.toNat ≤ s.pc.toNat → s.pc.toNat < s.codeBase.toNat + s.code.length →
      decode s.context (s.code.drop (s.pc.toNat - s.codeBase.toNat)) = .ok (i, rest) →
        s.pc.toNat + i.len s.context < pcLimit s.mode → step s = exec i s

/-- R20, R25, R180, R184, R211: every step keeps the invariant: memory in canonical form, mode and CPL coherent, no fault
recorded, pc an address of the mode, the register bits that are no state in the mode clear (log entries 10 and 17). -/
def Obligations.StepKeepsTheInvariant : Prop :=
  ∀ s t : State, s.inv = true → step s = .next t → t.inv = true

/-- R211 (the reset state is the model's launch state, log entry 1): the reset state meets the invariant and is a launch
state. -/
def Obligations.ResetIsALaunchState : Prop :=
  State.reset.inv = true ∧ State.reset.isLaunch = true

/-- R24, R26, R64, R67, R160, R184: a step that completes changes the destination register of the instruction at pc and no
other general register, and pc, which rises by that instruction's length, 5 to 14 bytes; the memory, the text, the mode,
the privilege level and every other constant of the run stay. -/
def Obligations.StepChangesOnlyTheDestinationAndPc : Prop :=
  ∀ s t : State, step s = .next t →
    ∃ i : Instr, s.fetch = .ok i ∧ (∀ r : Reg, r ≠ i.dst → t.regs.get r = s.regs.get r) ∧
      t = { s with regs := t.regs, pc := t.pc } ∧ t.pc.toNat = s.pc.toNat + i.len s.context ∧
        5 ≤ i.len s.context ∧ i.len s.context ≤ 14

/-- R213 (decision D15): "every run takes at most `length(code) / 5` steps: there are no hangs": no state takes more
completed steps than that, so every observation has an outcome. -/
def Obligations.RunsEndWithinAFifthOfTheText : Prop :=
  (∀ (s t : State) (k : Nat), s.code.length / 5 < k → Host.Core.run Sys2Proof.core k s ≠ .next t) ∧
    ∀ s : State, (observe s).kind ≠ .running

/-- R13, R180, R181, R216 (decision D3, log entry 4): a fault is terminal, and a run that meets one stops with it recorded
and nothing else of the state changed. That a step from a recorded fault answers that fault again, and that it is the run
that fills the record, is the model's choice (DESIGN CHOICE, log entry 5). -/
def Obligations.FaultsAreTerminalAndChangeNothing : Prop :=
  (∀ (s : State) (f : Fault), s.faultRecord = some f → step s = .fault f) ∧
    ∀ (s : State) (f : Fault) (k : Nat), step s = .fault f → runFor (k + 1) s = (.fault f, { s with faultRecord := some f })

/-- R26, R55, R101, R184, R213 (decisions D2, D13, D14; log entry 18): with no fault recorded, what a step refuses before
any execution: an incoherent mode and CPL, the end of the text, a pc outside the text, bytes the decoder refuses, a pc that
would reach the mode's limit. Two clauses are the model's choice: that a step at the end of the text, where R213 gives
none, answers the refusal runOver (DESIGN CHOICE, log entry 11), and that a pc + len equal to the limit is refused like one
that passes it, which D13 leaves open (DESIGN CHOICE, log entry 10). -/
def Obligations.StepRefusals : Prop :=
  ∀ s : State, s.faultRecord = none →
    ((s.mode = .v86 ∧ s.cpl ≠ 3 ∨ s.mode = .real ∧ s.cpl ≠ 0) → step s = .refused .incoherentMode) ∧
      (s.coherent = true →
        (s.pc.toNat = s.codeBase.toNat + s.code.length → step s = .refused .runOver) ∧
          ((s.pc.toNat < s.codeBase.toNat ∨ s.codeBase.toNat + s.code.length < s.pc.toNat) →
            step s = .refused .pcOutsideText) ∧
            (s.codeBase.toNat ≤ s.pc.toNat → s.pc.toNat < s.codeBase.toNat + s.code.length →
              (∀ e : DecodeRefusal, decode s.context (s.code.drop (s.pc.toNat - s.codeBase.toNat)) = .error e →
                  step s = .refused (.undecodable e)) ∧
                ∀ (i : Instr) (rest : List Byte),
                  decode s.context (s.code.drop (s.pc.toNat - s.codeBase.toNat)) = .ok (i, rest) →
                    pcLimit s.mode ≤ s.pc.toNat + i.len s.context → step s = .refused .pcWraps))

/-- R55, R211: fetch never reads the data memory, and an execution never reads the program text. -/
def Obligations.TextAndDataAreSeparateViews : Prop :=
  (∀ (s : State) (m : List Host.Cell), State.fetch { s with mem := m } = s.fetch) ∧
    ∀ (i : Instr) (s : State) (base : Word64) (bytes : List Byte),
      exec i { s with codeBase := base, code := bytes } =
        onNext (fun t => { t with codeBase := base, code := bytes }) (exec i s)
end

