-- ==== Sys2Proof/Laws/Crc.lean ====
section
/-! SUPPORT. `MOD2` as a descent over bit positions: the loop of R132 visits exactly the positions whose bit is set, from
the top down, so it equals a structural recursion over positions, which distributes over xor. -/

namespace Sys2Proof.Machine

theorem polynomial_log2 : polynomial.log2 = 32 := by decide

/-- One position after the other, from `t + k - 1` down to `t`: where the bit is set, xor `p` shifted under it. -/
def mod2Down (p t : Nat) : Nat → Nat → Nat
  | 0, a => a
  | k + 1, a => mod2Down p t k (if a.testBit (t + k) then a ^^^ p <<< k else a)

theorem xor_lt_of_top {a b w : Nat} (ha : a < 2 ^ (w + 1)) (hb : b < 2 ^ (w + 1)) (ta : a.testBit w = true)
    (tb : b.testBit w = true) : a ^^^ b < 2 ^ w := by
  refine Nat.lt_pow_two_of_testBit _ fun i hi => ?_
  rw [Nat.testBit_xor]
  rcases Nat.eq_or_lt_of_le hi with rfl | hlt
  · simp [ta, tb]
  · have hp : 2 ^ (w + 1) ≤ 2 ^ i := Nat.pow_le_pow_right (by omega) hlt
    rw [Nat.testBit_lt_two_pow (by omega), Nat.testBit_lt_two_pow (by omega)]
    rfl

theorem testBit_log2 {p : Nat} (hp : p ≠ 0) : p.testBit p.log2 = true := by
  have h1 := Nat.log2_self_le hp
  have h2 := Nat.lt_log2_self (n := p)
  by_contra h
  have h3 : p < 2 ^ p.log2 := by
    refine Nat.lt_pow_two_of_testBit _ fun i hi => ?_
    rcases Nat.eq_or_lt_of_le hi with rfl | hlt
    · simpa using h
    · exact Nat.testBit_lt_two_pow (lt_of_lt_of_le h2 (Nat.pow_le_pow_right (by omega) hlt))
  omega

theorem lt_of_top_clear {a w : Nat} (ha : a < 2 ^ (w + 1)) (t : a.testBit w = false) : a < 2 ^ w := by
  refine Nat.lt_pow_two_of_testBit _ fun i hi => ?_
  rcases Nat.eq_or_lt_of_le hi with rfl | hlt
  · exact t
  · exact Nat.testBit_lt_two_pow (lt_of_lt_of_le ha (Nat.pow_le_pow_right (by omega) hlt))

/-- A round of the descent lowers the top bit. -/
theorem mod2Down_round_lt {p a k : Nat} (hp : p ≠ 0) (ha : a < 2 ^ (p.log2 + k + 1)) :
    (if a.testBit (p.log2 + k) then a ^^^ p <<< k else a) < 2 ^ (p.log2 + k) := by
  split
  · next h =>
    refine xor_lt_of_top ha ?_ h ?_
    · rw [Nat.shiftLeft_eq, show p.log2 + k + 1 = (p.log2 + 1) + k by omega, Nat.pow_add]
      exact Nat.mul_lt_mul_of_pos_right Nat.lt_log2_self (by positivity)
    · rw [Nat.testBit_shiftLeft]
      simp [testBit_log2 hp]
  · next h => exact lt_of_top_clear ha (by simpa using h)

/-- The loop of R132 is the descent. -/
theorem mod2Loop_eq_mod2Down {p : Nat} (hp : p ≠ 0) : ∀ (k r a : Nat), a < 2 ^ (p.log2 + k) → a < 2 ^ (p.log2 + r) →
    mod2Loop p r a = mod2Down p p.log2 k a := by
  intro k
  induction k with
  | zero =>
    intro r a ha _
    cases r with
    | zero => rfl
    | succ r =>
      have : ¬(a ≠ 0 ∧ p.log2 ≤ a.log2) := by
        rintro ⟨h0, h1⟩
        have := (Nat.le_log2 h0).1 h1
        simp at ha
        omega
      simp [mod2Loop, this, mod2Down]
  | succ k ih =>
    intro r a ha hr
    by_cases ht : a.testBit (p.log2 + k) = true
    · have hle := Nat.ge_two_pow_of_testBit ht
      have hkr : k < r := by
        by_contra hn
        have : 2 ^ (p.log2 + r) ≤ 2 ^ (p.log2 + k) := Nat.pow_le_pow_right (by omega) (by omega)
        omega
      have h0 : a ≠ 0 := by
        have : 0 < 2 ^ (p.log2 + k) := by positivity
        omega
      have hlog : a.log2 = p.log2 + k := (Nat.log2_eq_iff h0).2 ⟨hle, ha⟩
      have hlt := mod2Down_round_lt (a := a) hp ha
      obtain ⟨r, rfl⟩ : ∃ r', r = r' + 1 := ⟨r - 1, by omega⟩
      simp only [ht, if_true] at hlt
      simp only [mod2Loop, mod2Down, ht, if_true, hlog, h0, ne_eq, not_false_eq_true, true_and, Nat.le_add_right,
        Nat.add_sub_cancel_left]
      exact ih r _ hlt (lt_of_lt_of_le hlt (Nat.pow_le_pow_right (by omega) (by omega)))
    · have hlt := mod2Down_round_lt (a := a) hp ha
      have ht' : a.testBit (p.log2 + k) = false := by simpa using ht
      simp only [ht', Bool.false_eq_true, if_false] at hlt
      simp only [mod2Down, ht', Bool.false_eq_true, if_false]
      exact ih r a hlt hr

/-- `MOD2` is the descent, for any number of positions that covers the dividend. -/
theorem mod2_eq_mod2Down {p k a : Nat} (hp : p ≠ 0) (ha : a < 2 ^ (p.log2 + k)) :
    mod2 a p = mod2Down p p.log2 k a :=
  mod2Loop_eq_mod2Down hp k _ a ha
    (lt_of_lt_of_le Nat.lt_log2_self (Nat.pow_le_pow_right (by omega) (by omega)))

/-- The descent distributes over xor. -/
theorem mod2Down_xor (p t : Nat) : ∀ (k a b : Nat), mod2Down p t k (a ^^^ b) = mod2Down p t k a ^^^ mod2Down p t k b := by
  intro k
  induction k with
  | zero => exact fun a b => rfl
  | succ k ih =>
    intro a b
    simp only [mod2Down]
    rw [← ih]
    congr 1
    rw [Nat.testBit_xor]
    cases a.testBit (t + k) <;> cases b.testBit (t + k) <;> simp [Nat.xor_comm, Nat.xor_left_comm]

/-- The descent ends below the top bit of the divisor. -/
theorem mod2Down_lt {p : Nat} (hp : p ≠ 0) : ∀ (k a : Nat), a < 2 ^ (p.log2 + k) → mod2Down p p.log2 k a < 2 ^ p.log2 := by
  intro k
  induction k with
  | zero => exact fun a ha => ha
  | succ k ih => exact fun a ha => ih _ (mod2Down_round_lt hp ha)

/-- A remainder by the polynomial has 32 bits (R132). -/
theorem mod2_polynomial_lt (a : Nat) : mod2 a polynomial < 2 ^ 32 := by
  have hp : polynomial ≠ 0 := by decide
  have ha : a < 2 ^ (polynomial.log2 + (a.log2 + 1)) :=
    lt_of_lt_of_le Nat.lt_log2_self (Nat.pow_le_pow_right (by omega) (by omega))
  rw [mod2_eq_mod2Down hp ha]
  have := mod2Down_lt hp _ _ ha
  rwa [polynomial_log2] at this ⊢

end Sys2Proof.Machine
end

