-- ==== Sys2Proof/Laws/State.lean ====
section
/-! SUPPORT. What each update of the state does to each of its fields: one lemma per field per update, true by rfl. -/

namespace Sys2Proof.Machine

variable (s : State)

/-! ### setReg -/

@[simp] theorem State.setReg_regs (i : Reg) (v : Word64) : (s.setReg i v).regs = s.regs.set i v := rfl
@[simp] theorem State.setReg_pc (i : Reg) (v : Word64) : (s.setReg i v).pc = s.pc := rfl
@[simp] theorem State.setReg_rflags (i : Reg) (v : Word64) : (s.setReg i v).rflags = s.rflags := rfl
@[simp] theorem State.setReg_mode (i : Reg) (v : Word64) : (s.setReg i v).mode = s.mode := rfl
@[simp] theorem State.setReg_csD (i : Reg) (v : Word64) : (s.setReg i v).csD = s.csD := rfl
@[simp] theorem State.setReg_sse42 (i : Reg) (v : Word64) : (s.setReg i v).sse42 = s.sse42 := rfl
@[simp] theorem State.setReg_cpl (i : Reg) (v : Word64) : (s.setReg i v).cpl = s.cpl := rfl
@[simp] theorem State.setReg_cr0AM (i : Reg) (v : Word64) : (s.setReg i v).cr0AM = s.cr0AM := rfl
@[simp] theorem State.setReg_vaBits (i : Reg) (v : Word64) : (s.setReg i v).vaBits = s.vaBits := rfl
@[simp] theorem State.setReg_fsBase (i : Reg) (v : Word64) : (s.setReg i v).fsBase = s.fsBase := rfl
@[simp] theorem State.setReg_gsBase (i : Reg) (v : Word64) : (s.setReg i v).gsBase = s.gsBase := rfl
@[simp] theorem State.setReg_segs (i : Reg) (v : Word64) : (s.setReg i v).segs = s.segs := rfl
@[simp] theorem State.setReg_a20Masked (i : Reg) (v : Word64) : (s.setReg i v).a20Masked = s.a20Masked := rfl
@[simp] theorem State.setReg_paging (i : Reg) (v : Word64) : (s.setReg i v).paging = s.paging := rfl
@[simp] theorem State.setReg_mem (i : Reg) (v : Word64) : (s.setReg i v).mem = s.mem := rfl
@[simp] theorem State.setReg_codeBase (i : Reg) (v : Word64) : (s.setReg i v).codeBase = s.codeBase := rfl
@[simp] theorem State.setReg_code (i : Reg) (v : Word64) : (s.setReg i v).code = s.code := rfl
@[simp] theorem State.setReg_faultRecord (i : Reg) (v : Word64) : (s.setReg i v).faultRecord = s.faultRecord := rfl

/-! ### setPc -/

@[simp] theorem State.setPc_regs (t : Word64) : (s.setPc t).regs = s.regs := rfl
@[simp] theorem State.setPc_pc (t : Word64) : (s.setPc t).pc = t := rfl
@[simp] theorem State.setPc_rflags (t : Word64) : (s.setPc t).rflags = s.rflags := rfl
@[simp] theorem State.setPc_mode (t : Word64) : (s.setPc t).mode = s.mode := rfl
@[simp] theorem State.setPc_csD (t : Word64) : (s.setPc t).csD = s.csD := rfl
@[simp] theorem State.setPc_sse42 (t : Word64) : (s.setPc t).sse42 = s.sse42 := rfl
@[simp] theorem State.setPc_cpl (t : Word64) : (s.setPc t).cpl = s.cpl := rfl
@[simp] theorem State.setPc_cr0AM (t : Word64) : (s.setPc t).cr0AM = s.cr0AM := rfl
@[simp] theorem State.setPc_vaBits (t : Word64) : (s.setPc t).vaBits = s.vaBits := rfl
@[simp] theorem State.setPc_fsBase (t : Word64) : (s.setPc t).fsBase = s.fsBase := rfl
@[simp] theorem State.setPc_gsBase (t : Word64) : (s.setPc t).gsBase = s.gsBase := rfl
@[simp] theorem State.setPc_segs (t : Word64) : (s.setPc t).segs = s.segs := rfl
@[simp] theorem State.setPc_a20Masked (t : Word64) : (s.setPc t).a20Masked = s.a20Masked := rfl
@[simp] theorem State.setPc_paging (t : Word64) : (s.setPc t).paging = s.paging := rfl
@[simp] theorem State.setPc_mem (t : Word64) : (s.setPc t).mem = s.mem := rfl
@[simp] theorem State.setPc_codeBase (t : Word64) : (s.setPc t).codeBase = s.codeBase := rfl
@[simp] theorem State.setPc_code (t : Word64) : (s.setPc t).code = s.code := rfl
@[simp] theorem State.setPc_faultRecord (t : Word64) : (s.setPc t).faultRecord = s.faultRecord := rfl

/-! ### recordFault -/

@[simp] theorem State.recordFault_regs (f : Fault) : (s.recordFault f).regs = s.regs := rfl
@[simp] theorem State.recordFault_pc (f : Fault) : (s.recordFault f).pc = s.pc := rfl
@[simp] theorem State.recordFault_rflags (f : Fault) : (s.recordFault f).rflags = s.rflags := rfl
@[simp] theorem State.recordFault_mode (f : Fault) : (s.recordFault f).mode = s.mode := rfl
@[simp] theorem State.recordFault_csD (f : Fault) : (s.recordFault f).csD = s.csD := rfl
@[simp] theorem State.recordFault_sse42 (f : Fault) : (s.recordFault f).sse42 = s.sse42 := rfl
@[simp] theorem State.recordFault_cpl (f : Fault) : (s.recordFault f).cpl = s.cpl := rfl
@[simp] theorem State.recordFault_cr0AM (f : Fault) : (s.recordFault f).cr0AM = s.cr0AM := rfl
@[simp] theorem State.recordFault_vaBits (f : Fault) : (s.recordFault f).vaBits = s.vaBits := rfl
@[simp] theorem State.recordFault_fsBase (f : Fault) : (s.recordFault f).fsBase = s.fsBase := rfl
@[simp] theorem State.recordFault_gsBase (f : Fault) : (s.recordFault f).gsBase = s.gsBase := rfl
@[simp] theorem State.recordFault_segs (f : Fault) : (s.recordFault f).segs = s.segs := rfl
@[simp] theorem State.recordFault_a20Masked (f : Fault) : (s.recordFault f).a20Masked = s.a20Masked := rfl
@[simp] theorem State.recordFault_paging (f : Fault) : (s.recordFault f).paging = s.paging := rfl
@[simp] theorem State.recordFault_mem (f : Fault) : (s.recordFault f).mem = s.mem := rfl
@[simp] theorem State.recordFault_codeBase (f : Fault) : (s.recordFault f).codeBase = s.codeBase := rfl
@[simp] theorem State.recordFault_code (f : Fault) : (s.recordFault f).code = s.code := rfl
@[simp] theorem State.recordFault_faultRecord (f : Fault) : (s.recordFault f).faultRecord = some f := rfl

/-! ### withFetchWord -/

@[simp] theorem State.withFetchWord_regs (n w : Nat) : (s.withFetchWord n w).regs = s.regs := rfl
@[simp] theorem State.withFetchWord_pc (n w : Nat) : (s.withFetchWord n w).pc = s.pc := rfl
@[simp] theorem State.withFetchWord_rflags (n w : Nat) : (s.withFetchWord n w).rflags = s.rflags := rfl
@[simp] theorem State.withFetchWord_mode (n w : Nat) : (s.withFetchWord n w).mode = s.mode := rfl
@[simp] theorem State.withFetchWord_csD (n w : Nat) : (s.withFetchWord n w).csD = s.csD := rfl
@[simp] theorem State.withFetchWord_sse42 (n w : Nat) : (s.withFetchWord n w).sse42 = s.sse42 := rfl
@[simp] theorem State.withFetchWord_cpl (n w : Nat) : (s.withFetchWord n w).cpl = s.cpl := rfl
@[simp] theorem State.withFetchWord_cr0AM (n w : Nat) : (s.withFetchWord n w).cr0AM = s.cr0AM := rfl
@[simp] theorem State.withFetchWord_vaBits (n w : Nat) : (s.withFetchWord n w).vaBits = s.vaBits := rfl
@[simp] theorem State.withFetchWord_fsBase (n w : Nat) : (s.withFetchWord n w).fsBase = s.fsBase := rfl
@[simp] theorem State.withFetchWord_gsBase (n w : Nat) : (s.withFetchWord n w).gsBase = s.gsBase := rfl
@[simp] theorem State.withFetchWord_segs (n w : Nat) : (s.withFetchWord n w).segs = s.segs := rfl
@[simp] theorem State.withFetchWord_a20Masked (n w : Nat) : (s.withFetchWord n w).a20Masked = s.a20Masked := rfl
@[simp] theorem State.withFetchWord_paging (n w : Nat) : (s.withFetchWord n w).paging = s.paging := rfl
@[simp] theorem State.withFetchWord_mem (n w : Nat) : (s.withFetchWord n w).mem = s.mem := rfl
@[simp] theorem State.withFetchWord_codeBase (n w : Nat) : (s.withFetchWord n w).codeBase = s.pc := rfl
@[simp] theorem State.withFetchWord_code (n w : Nat) : (s.withFetchWord n w).code = tableBytes n w := rfl
@[simp] theorem State.withFetchWord_faultRecord (n w : Nat) : (s.withFetchWord n w).faultRecord = s.faultRecord := rfl

/-! ### The decoder's view of a state -/

@[simp] theorem State.setReg_context (i : Reg) (v : Word64) : (s.setReg i v).context = s.context := rfl
@[simp] theorem State.setPc_context (t : Word64) : (s.setPc t).context = s.context := rfl
@[simp] theorem State.recordFault_context (f : Fault) : (s.recordFault f).context = s.context := rfl
@[simp] theorem State.withFetchWord_context (n w : Nat) : (s.withFetchWord n w).context = s.context := rfl
@[simp] theorem State.context_mode : s.context.mode = s.mode := rfl
@[simp] theorem State.context_csD : s.context.csD = s.csD := rfl

end Sys2Proof.Machine
end

