-- ==== Sys2Proof/Laws/Regs.lean ====
section
/-! SUPPORT. The register file: reading after writing, the views of a written register, register numbers. -/

namespace Sys2Proof.Machine

@[simp] theorem Gprs.get_set_self (g : Gprs) (i : Reg) (v : Word64) : (g.set i v).get i = v := by
  cases i <;> rfl

theorem Gprs.get_set_of_ne (g : Gprs) {i j : Reg} (v : Word64) (h : j ≠ i) : (g.set i v).get j = g.get j := by
  cases i <;> cases j <;> first | rfl | exact absurd rfl h

theorem Gprs.get_set (g : Gprs) (i j : Reg) (v : Word64) :
    (g.set i v).get j = if j = i then v else g.get j := by
  split
  · next h => subst h; simp
  · next h => exact g.get_set_of_ne v h

@[simp] theorem Gprs.set_set (g : Gprs) (i : Reg) (v w : Word64) : (g.set i v).set i w = g.set i w := by
  cases i <;> rfl

@[simp] theorem Gprs.set_get (g : Gprs) (i : Reg) : g.set i (g.get i) = g := by
  cases i <;> rfl

/-- Two register files that read the same are the same. -/
theorem Gprs.ext_get {g h : Gprs} (e : ∀ r, g.get r = h.get r) : g = h := by
  cases g; cases h
  have := e .rax; have := e .rcx; have := e .rdx; have := e .rbx
  have := e .rsp; have := e .rbp; have := e .rsi; have := e .rdi
  have := e .r8; have := e .r9; have := e .r10; have := e .r11
  have := e .r12; have := e .r13; have := e .r14; have := e .r15
  simp_all [Gprs.get]

@[simp] theorem State.w32_eq (s : State) (i : Reg) (v : Word32) :
    s.w32 i v = s.setReg i (write32 s.mode (s.r64 i) v) := rfl

@[simp] theorem State.w64_eq (s : State) (i : Reg) (v : Word64) : s.w64 i v = s.setReg i v := rfl

theorem write32_mode64 (old : Word64) (v : Word32) : write32 .mode64 old v = v.setWidth 64 := rfl

theorem write32_of_ne {m : Mode} (old : Word64) (v : Word32) (h : m ≠ .mode64) :
    write32 m old v = old >>> 32 <<< 32 ||| v.setWidth 64 := by
  simp [write32, h]

/-- The low half of the destination is the value written, in every mode. -/
theorem write32_low (m : Mode) (old : Word64) (v : Word32) : (write32 m old v).extractLsb' 0 32 = v := by
  unfold write32
  split <;> ext i hi
  · simp [hi]; omega
  · simp [hi]; omega

/-- The upper half of the destination: cleared in 64-bit mode, kept elsewhere. -/
theorem write32_high (m : Mode) (old : Word64) (v : Word32) :
    (write32 m old v).extractLsb' 32 32 = if m = .mode64 then 0 else old.extractLsb' 32 32 := by
  unfold write32
  split <;> ext i hi
  · simp
  · simp; omega

end Sys2Proof.Machine

namespace Sys2Proof

@[simp] theorem Reg.ofNum_num (r : Reg) : Reg.ofNum r.num = r := by cases r <;> rfl

@[simp] theorem Reg.ofField_code (r : Reg) : Reg.ofField r.extended r.code = r := by cases r <;> decide

theorem Reg.ofField_false_code {r : Reg} (h : r.extended = false) : Reg.ofField false r.code = r := by
  have := Reg.ofField_code r
  rwa [h] at this

theorem Reg.ofField_extended : ∀ (hi : Bool) (c : BitVec 3), (Reg.ofField hi c).extended = hi := by decide

theorem Reg.ofField_code_eq : ∀ (hi : Bool) (c : BitVec 3), (Reg.ofField hi c).code = c := by decide

end Sys2Proof
end

