-- ==== Sys2Proof/Laws/Decode.lean ====
section
/-! SUPPORT. The fields of an encoding read back: ModRM, SIB and REX bytes, displacements, the choice of the row. -/

namespace Sys2Proof

/-- A ModRM or SIB byte read back gives its three fields. -/
@[simp] theorem FieldByte.ofByte_byte (f : FieldByte) : FieldByte.ofByte f.byte = f := by
  have key : ∀ (t : BitVec 2) (m l : BitVec 3),
      FieldByte.ofByte (FieldByte.byte { top := t, mid := m, low := l }) = { top := t, mid := m, low := l } := by
    decide +kernel
  exact key f.top f.mid f.low

/-- Every byte is the byte of its three fields. -/
@[simp] theorem FieldByte.byte_ofByte (b : Byte) : (FieldByte.ofByte b).byte = b := by
  have key : ∀ b : Byte, (FieldByte.ofByte b).byte = b := by decide +kernel
  exact key b

/-- A REX byte read back gives its four bits. -/
@[simp] theorem Rex.ofByte_byte (x : Rex) : Rex.ofByte x.byte = x := by
  have key : ∀ w r x b : Bool, Rex.ofByte (Rex.byte { w := w, r := r, x := x, b := b }) = { w := w, r := r, x := x, b := b } := by
    decide
  exact key x.w x.r x.x x.b

/-- A REX byte has 0100 in its upper half. -/
@[simp] theorem Rex.byte_top (x : Rex) : x.byte.extractLsb' 4 4 = 0x4 := by
  have key : ∀ w r x b : Bool, (Rex.byte { w := w, r := r, x := x, b := b }).extractLsb' 4 4 = 0x4 := by decide
  exact key x.w x.r x.x x.b

@[simp] theorem segOfByte_byte (g : Seg) : segOfByte g.byte = some g := by cases g <;> decide

@[simp] theorem Scale.ofCode_code (s : Scale) : Scale.ofCode s.code = s := by cases s <;> decide

@[simp] theorem Base16.ofCode_code (b : Base16) : Base16.ofCode b.code = b := by cases b <;> decide

/-- A 16-bit displacement read back. -/
@[simp] theorem readDisp16_bytes (v : Word16) (rest : List Byte) :
    readDisp16 (Disp16.bytes (.d16 v) ++ rest) = .ok (v, rest) := by
  simp only [Disp16.bytes, List.cons_append, List.nil_append, readDisp16, Except.ok.injEq, Prod.mk.injEq, and_true]
  ext i hi
  simp only [BitVec.getElem_or, BitVec.getElem_setWidth, BitVec.getElem_shiftLeft, BitVec.getLsbD_extractLsb']
  by_cases h1 : i < 8 <;> simp [h1, BitVec.getLsbD_eq_getElem hi]
  simp [show i - 8 < 8 by omega, show 8 + (i - 8) = i by omega, BitVec.getLsbD_eq_getElem hi]

/-- A 32-bit displacement read back. -/
@[simp] theorem readDisp32_bytes (v : Word32) (rest : List Byte) :
    readDisp32 (Disp.bytes (.d32 v) ++ rest) = .ok (v, rest) := by
  simp only [Disp.bytes, List.cons_append, List.nil_append, readDisp32, Except.ok.injEq, Prod.mk.injEq, and_true]
  ext i hi
  simp only [BitVec.getElem_or, BitVec.getElem_setWidth, BitVec.getElem_shiftLeft, BitVec.getLsbD_extractLsb']
  rcases (by omega : i < 8 ∨ 8 ≤ i ∧ i < 16 ∨ 16 ≤ i ∧ i < 24 ∨ 24 ≤ i) with h | h | h | h
  · simp [h, show i < 16 by omega, show i < 24 by omega, BitVec.getLsbD_eq_getElem hi]
  · simp [show ¬i < 8 by omega, show i < 16 by omega, show i < 24 by omega, show i - 8 < 8 by omega,
      show 8 + (i - 8) = i by omega, BitVec.getLsbD_eq_getElem hi]
  · simp [show ¬i < 8 by omega, show ¬i < 16 by omega, show i < 24 by omega, show ¬i - 8 < 8 by omega,
      show i - 16 < 8 by omega, show 16 + (i - 16) = i by omega,
      BitVec.getLsbD_eq_getElem hi]
  · simp [show ¬i < 8 by omega, show ¬i < 16 by omega, show ¬i < 24 by omega, show ¬i - 8 < 8 by omega,
      show ¬i - 16 < 8 by omega, show i - 24 < 8 by omega, show 24 + (i - 24) = i by omega,
      BitVec.getLsbD_eq_getElem hi]

/-- The row is chosen back from what its bytes show. -/
theorem chooseForm_of_form (c : CodeContext) (f : Form) (r x b : Bool) :
    chooseForm c (f.needs66 c) (if f.hasRex then some { w := f.rexW, r := r, x := x, b := b } else none) f.opcodeF1 =
      .ok f := by
  have word (p : Bool) : c.word16 p = (if p then c.word16 true else !c.word16 true) := by
    unfold CodeContext.word16
    cases c.codeSize <;> cases p <;> rfl
  cases f <;> cases h : c.word16 true <;> simp [chooseForm, Form.needs66, Form.hasRex, Form.opcodeF1, Form.rexW, h, word false]

/-! ### The readers read back what the encoder writes -/

/-- The first byte of the opcode and a REX byte are no legacy prefix bytes. -/
theorem Legacy.add_eq_none (m : Mode) (p : Legacy) (b : Byte) (h : b = 0x0F ∨ b.extractLsb' 4 4 = 0x4) :
    p.add m b = .ok none := by
  have key : ∀ b : Byte, (b = 0x0F ∨ b.extractLsb' 4 4 = 0x4) →
      b ≠ 0x66 ∧ b ≠ 0x67 ∧ b ≠ 0xF2 ∧ b ≠ 0xF0 ∧ b ≠ 0xF3 ∧ segOfByte b = none := by decide +kernel
  obtain ⟨h1, h2, h3, h4, h5, h6⟩ := key b h
  simp only [Legacy.add]
  rw [if_neg h1, if_neg h2, if_neg h3, if_neg h4, if_neg h5, h6]

/-- The legacy prefix bytes of an encoding, read back before a byte that is none. -/
theorem readLegacy_encoded (m : Mode) (lock p66 p67 : Bool) (g : Option Seg) (hg : overrideWellFormed m g = true)
    (b : Byte) (bs : List Byte) (hb : ∀ p : Legacy, p.add m b = .ok none) :
    readLegacy m .empty (((if lock then [0xF0] else []) ++ (if p66 then [0x66] else []) ++ (if p67 then [0x67] else []) ++
        overrideBytes g ++ [0xF2]) ++ b :: bs) =
      .ok ({ p66 := p66, p67 := p67, pF2 := true, lock := lock, seg := g }, b :: bs) := by
  have h66 : ∀ p : Legacy, p.p66 = false → p.add m 102#8 = .ok (some { p with p66 := true }) := by
    intro p h; simp [Legacy.add, h]
  have h67 : ∀ p : Legacy, p.p67 = false → p.add m 103#8 = .ok (some { p with p67 := true }) := by
    intro p h; simp [Legacy.add, h]
  have hF2 : ∀ p : Legacy, p.pF2 = false → p.add m 242#8 = .ok (some { p with pF2 := true }) := by
    intro p h; simp [Legacy.add, h]
  have hF0 : ∀ p : Legacy, p.lock = false → p.add m 240#8 = .ok (some { p with lock := true }) := by
    intro p h; simp [Legacy.add, h]
  cases g with
  | none =>
    cases lock <;> cases p66 <;> cases p67 <;>
      simp [readLegacy, Legacy.empty, h66, h67, hF2, hF0, overrideBytes, hb]
  | some g =>
    simp only [overrideWellFormed] at hg
    have hS : ∀ p : Legacy, p.seg = none → p.add m g.byte = .ok (some { p with seg := some g }) := by
      intro p h; cases g <;> simp [Legacy.add, h, Seg.byte, segOfByte, hg]
    cases lock <;> cases p66 <;> cases p67 <;>
      simp [readLegacy, Legacy.empty, h66, h67, hF2, hF0, hS, overrideBytes, hb]

/-- A displacement of a 32- or 64-bit form read back. -/
theorem readDisp_bytes (mk : Disp → AddrForm) (d : Disp) (rest : List Byte) : readDisp d.mod mk (d.bytes ++ rest) = .ok (mk d, rest) := by
  cases d with
  | absent => simp [readDisp, Disp.mod, Disp.bytes]
  | d8 v => simp [readDisp, Disp.mod, Disp.bytes, readDisp8]
  | d32 v => 
    have : ¬ ((2 : BitVec 2) = 0) := by decide
    have : ¬ ((2 : BitVec 2) = 1) := by decide
    simp only [readDisp, Disp.mod, *, if_false, readForm32, readDisp32_bytes]

/-- A form that ends in a 32-bit displacement read back. -/
theorem readForm32_bytes (mk : Word32 → AddrForm) (v : Word32) (rest : List Byte) : readForm32 mk (Disp.bytes (.d32 v) ++ rest) = .ok (mk v, rest) := by
  simp only [readForm32, readDisp32_bytes]

/-- The two parts of a SIB byte read back. -/
theorem sibIndex_sibByte (x : Option Index) (base : BitVec 3) (rex : Bool) (rx : Rex) (hx : indexWellFormed rex x = true)
   (hrx : rx.x = match x with | none => false | some i => i.reg.extended) :
   sibIndex rx (FieldByte.ofByte (sibByte x base)) = x ∧ (FieldByte.ofByte (sibByte x base)).low = base := by
  cases x with
  | none => simp only [sibByte, FieldByte.ofByte_byte, and_true]; simp only at hrx; simp [sibIndex, hrx]; decide
  | some i =>
    obtain ⟨r, sc⟩ := i
    simp only [indexWellFormed, Index.wellFormed, Bool.and_eq_true, bne_iff_ne, ne_eq] at hx
    simp only at hrx
    simp [sibByte, sibIndex, hrx, hx.2]

/-- A SIB byte with a base, and its displacement, read back. -/
theorem readSib_encoded (x : Option Index) (b : Reg) (d : Disp) (rex : Bool) (rx : Rex) (rest : List Byte) (hx : indexWellFormed rex x = true)
  (hrx : rx.x = match x with | none => false | some i => i.reg.extended) (hb : rx.b = b.extended) (hd : d.fitsBase b = true) :
  readSib rx d.mod (sibByte x b.code :: d.bytes ++ rest) = .ok (.sib b x d, rest) := by
  obtain ⟨h1, h2⟩ := sibIndex_sibByte x b.code rex rx hx hrx
  simp only [readSib, List.cons_append, h1, h2, hb, Reg.ofField_code, readDisp_bytes]
  rw [if_neg]
  rintro ⟨h3, h4⟩
  cases d <;> simp_all [Disp.mod, Disp.fitsBase]
  cases b <;> simp_all [Reg.code, Reg.num]

/-- A form without a SIB byte and with a base register. -/
theorem readForm_base (m : Mode) (x : Rex) (md : BitVec 2) (rm : BitVec 3) (bs : List Byte) (h1 : ¬ rm = 4) (h2 : ¬ (md = 0 ∧ rm = 5)) : readForm m x md rm bs = readDisp md (.base (Reg.ofField x.b rm)) bs := by
  unfold readForm; rw [if_neg h1, if_neg h2]

/-- A 16-bit form of registers alone. -/
theorem readForm16_registers (rm : BitVec 3) (bs : List Byte) (h1 : ¬ rm = 6) : readForm16 0 rm bs = .ok (.base16 (Base16.ofCode rm) .absent, bs) := by
  unfold readForm16; rw [if_pos rfl, if_neg h1]

/-- An address form of address size 32 or 64 read back. -/
theorem readForm_encoded (m : Mode) (a : AddrSize) (f : AddrForm) (rex : Bool) (rx : Rex) (rest : List Byte) (ha : a ≠ .a16)
  (hw : f.wellFormed m a rex = true) (hx : rx.x = f.rexX) (hb : rx.b = f.rexB) :
  readForm m rx f.encode.1 f.encode.2.1 (f.encode.2.2 ++ rest) = .ok (f, rest) := by
  cases f with
  | base b d =>
    simp only [AddrForm.wellFormed, Bool.and_eq_true, bne_iff_ne, ne_eq] at hw
    simp only [AddrForm.rexB] at hb
    refine (readForm_base m rx d.mod b.code (d.bytes ++ rest) ?_ ?_).trans ?_
    rotate_left
    · rintro ⟨h3, h4⟩
      cases d <;> simp_all [Disp.mod, Disp.fitsBase]
      cases b <;> simp_all [Reg.code, Reg.num]
    · simp [hb, readDisp_bytes]
    · intro h4
      cases b <;> simp_all [Reg.code, Reg.num]
  | sib b x d =>
    simp only [AddrForm.wellFormed, Bool.and_eq_true, bne_iff_ne, ne_eq] at hw
    simp only [AddrForm.encode, readForm, if_true]
    exact readSib_encoded x b d rex rx rest hw.1.2 (by cases x <;> exact hx) hb hw.2
  | sibNoBase x d =>
    simp only [AddrForm.wellFormed, Bool.and_eq_true, bne_iff_ne, ne_eq] at hw
    simp only [AddrForm.encode, readForm, if_true]
    obtain ⟨h1, h2⟩ := sibIndex_sibByte x 5 rex rx hw.2 (by cases x <;> exact hx)
    simp only [readSib, List.cons_append, h1, h2, and_self, if_true, readForm32_bytes]
  | ripRelative d =>
    simp [AddrForm.wellFormed] at hw
    simp only [AddrForm.encode, readForm]
    rw [if_neg (by decide), if_pos (by simp), readForm32_bytes]
    simp [hw.2]
  | absolute d =>
    simp [AddrForm.wellFormed] at hw
    simp only [AddrForm.encode, readForm]
    rw [if_neg (by decide), if_pos (by simp), readForm32_bytes]
    simp [hw.2]
  | base16 b d => simp_all [AddrForm.wellFormed]
  | absolute16 d => simp_all [AddrForm.wellFormed]

/-- An address form of address size 16 read back. -/
theorem readForm16_encoded (m : Mode) (f : AddrForm) (rex : Bool) (rest : List Byte)
  (hw : f.wellFormed m .a16 rex = true) :
  readForm16 f.encode.1 f.encode.2.1 (f.encode.2.2 ++ rest) = .ok (f, rest) := by
  cases f with
  | base16 b d =>
    cases d with
    | absent =>
      refine (readForm16_registers b.code rest ?_).trans ?_
      rotate_left
      · simp
      · cases b <;> simp_all [AddrForm.wellFormed, Base16.code]
    | d8 v => simp [AddrForm.encode, readForm16, Disp16.mod, Disp16.bytes, readDisp8]
    | d16 v =>
      have : ¬ ((2 : BitVec 2) = 0) := by decide
      have : ¬ ((2 : BitVec 2) = 1) := by decide
      simp only [AddrForm.encode, readForm16, Disp16.mod, *, if_false, readDisp16_bytes, Base16.ofCode_code]
  | absolute16 d =>
    simp only [AddrForm.encode, readForm16, if_true, readDisp16_bytes]
  | _ => simp [AddrForm.wellFormed] at hw

/-- A source operand read back. -/
theorem readSource_encoded (c : CodeContext) (src : Source) (rex : Bool) (p : Legacy) (rx : Rex) (reg : BitVec 3) (rest : List Byte)
  (hw : src.wellFormed c.mode rex = true) (h67 : p.p67 = src.needs67 c) (hs : p.seg = src.override)
  (hx : rx.x = src.rexX) (hb : rx.b = src.rexB) :
  readSource c p rx { top := src.encode.1, mid := reg, low := src.encode.2.1} (src.encode.2.2 ++ rest) = .ok (src, rest) := by
  cases src with
  | reg i =>
    simp only [Source.needs67, Source.override, Source.rexB] at h67 hs hb
    simp [readSource, Source.encode, h67, hs, hb]
  | mem o =>
    obtain ⟨a, ov, f⟩ := o
    simp only [Source.wellFormed, MemOperand.wellFormed, Bool.and_eq_true] at hw
    have hne : ¬ (Source.encode (.mem ⟨a, ov, f⟩)).1 = 3 := by
      simp only [Source.encode]
      cases f <;> simp only [AddrForm.encode] <;> first | decide | (rename_i d; cases d <;> simp [Disp.mod, Disp16.mod])
    have ha : c.addrSize p.p67 = a := by
      rw [h67]
      simp only [Source.needs67]
      obtain ⟨⟨h1, -⟩, -⟩ := hw
      obtain ⟨m, d⟩ := c
      cases m <;> cases d <;> cases a <;> first | rfl | (exact absurd h1 (by decide))
    simp only [readSource, hne, if_false, ha]
    by_cases h16 : a = .a16
    · subst h16
      simp only [Source.encode] at *
      simp [readForm16_encoded c.mode f rex rest hw.2, hs, Source.override]
    · have := readForm_encoded c.mode a f rex rx rest h16 hw.2 hx hb
      simp only [Source.encode, h16, if_false, this, hs, Source.override]

end Sys2Proof
end

