-- ==== Sys2Proof/Laws/Memory.lean ====
section
/-! SUPPORT. The data memory: reading after writing, and the canonical form, which every memory operation keeps and
which makes equal memories equal data. -/

namespace Sys2Proof.Machine

/-- A byte written is read back, and every other address reads as before. -/
theorem memGet_memSet (m : List Host.Cell) (x y : Nat) (v : Byte) :
    memGet (memSet m x v) y = if y = x then some v else memGet m y := by
  induction m with
  | nil => simp [memSet, memGet]
  | cons c m ih =>
    obtain ⟨a, b⟩ := c
    simp only [memSet]
    split
    · simp [memGet]
    · split
      · next h => subst h; simp only [memGet]; split <;> simp_all
      · next hne =>
        simp only [memGet, ih]
        by_cases hy : y = a
        · subst hy; simp [Ne.symm hne]
        · simp [hy]

theorem memAbove_of_le {x y : Nat} (h : y ≤ x) : ∀ {m : List Host.Cell}, memAbove x m = true → memAbove y m = true
  | [], _ => rfl
  | (a, _) :: m, hm => by
    simp only [memAbove, Bool.and_eq_true, decide_eq_true_eq] at *
    exact ⟨by omega, hm.2⟩

theorem memAbove_memSet {z x : Nat} (v : Byte) (h : z < x) :
    ∀ {m : List Host.Cell}, memAbove z m = true → memAbove z (memSet m x v) = true := by
  intro m
  induction m generalizing z with
  | nil => intro _; simpa [memSet, memAbove] using h
  | cons c m ih =>
    obtain ⟨a, b⟩ := c
    intro hm
    simp only [memAbove, Bool.and_eq_true, decide_eq_true_eq] at hm
    simp only [memSet]
    split
    · simp [memAbove, *]
    · split
      · next e => subst e; simp [memAbove, hm.1, hm.2]
      · simp only [memAbove, Bool.and_eq_true, decide_eq_true_eq]
        exact ⟨hm.1, ih (by omega) hm.2⟩

/-- Writing a byte keeps the canonical form. -/
theorem memSet_wf (m : List Host.Cell) (x : Nat) (v : Byte) (h : Memory.wf m = true) :
    Memory.wf (memSet m x v) = true := by
  cases m with
  | nil => rfl
  | cons c m =>
    obtain ⟨a, b⟩ := c
    simp only [memSet]
    split
    · simp_all [Memory.wf, memAbove]
    · split
      · next e => subst e; exact h
      · exact memAbove_memSet v (by omega) h

/-- Loading bytes keeps the canonical form. -/
theorem memLoad_wf (bs : List Byte) : ∀ (m : List Host.Cell) (x : Nat), Memory.wf m = true →
    Memory.wf (memLoad m x bs) = true := by
  induction bs with
  | nil => exact fun m x h => h
  | cons b bs ih => exact fun m x h => ih _ _ (memSet_wf m x b h)

/-- An address at or below the bound of a memory holds no byte. -/
theorem memGet_eq_none_of_memAbove {x y : Nat} (h : y ≤ x) :
    ∀ {m : List Host.Cell}, memAbove x m = true → memGet m y = none
  | [], _ => rfl
  | (a, b) :: m, hm => by
    simp only [memAbove, Bool.and_eq_true, decide_eq_true_eq] at hm
    simp only [memGet]
    rw [if_neg (by omega)]
    exact memGet_eq_none_of_memAbove (by omega) hm.2

theorem memAbove_ext {x : Nat} : ∀ {m m' : List Host.Cell}, memAbove x m = true → memAbove x m' = true →
    (∀ y, x < y → memGet m y = memGet m' y) → m = m'
  | [], [], _, _, _ => rfl
  | [], (a, b) :: m', _, h', e => by
    simp only [memAbove, Bool.and_eq_true, decide_eq_true_eq] at h'
    have := e a h'.1
    simp [memGet] at this
  | (a, b) :: m, [], h, _, e => by
    simp only [memAbove, Bool.and_eq_true, decide_eq_true_eq] at h
    have := e a h.1
    simp [memGet] at this
  | (a, b) :: m, (a', b') :: m', h, h', e => by
    simp only [memAbove, Bool.and_eq_true, decide_eq_true_eq] at h h'
    have key : a = a' := by
      rcases Nat.lt_trichotomy a a' with lt | eq | lt
      · have := e a h.1
        simp [memGet, Nat.ne_of_lt lt, memGet_eq_none_of_memAbove (Nat.le_of_lt lt) h'.2] at this
      · exact eq
      · have := e a' h'.1
        simp [memGet, Nat.ne_of_lt lt, memGet_eq_none_of_memAbove (Nat.le_of_lt lt) h.2] at this
    subst key
    have hb := e a h.1
    simp only [memGet, if_true, Option.some.injEq] at hb
    rw [hb, memAbove_ext h.2 h'.2 fun y hy => ?_]
    have := e y (by omega)
    simpa [memGet, Nat.ne_of_gt hy] using this

/-- Two memories in canonical form that read the same are the same data. -/
theorem Memory.ext {m m' : List Host.Cell} (h : Memory.wf m = true) (h' : Memory.wf m' = true)
    (e : ∀ y, memGet m y = memGet m' y) : m = m' := by
  cases m with
  | nil =>
    cases m' with
    | nil => rfl
    | cons c m' => have := e c.1; simp [memGet] at this
  | cons c m =>
    cases m' with
    | nil => have := e c.1; simp [memGet] at this
    | cons c' m' =>
      obtain ⟨a, b⟩ := c
      obtain ⟨a', b'⟩ := c'
      simp only [Memory.wf] at h h'
      have key : a = a' := by
        rcases Nat.lt_trichotomy a a' with lt | eq | lt
        · have := e a
          simp [memGet, Nat.ne_of_lt lt, memGet_eq_none_of_memAbove (Nat.le_of_lt lt) h'] at this
        · exact eq
        · have := e a'
          simp [memGet, Nat.ne_of_lt lt, memGet_eq_none_of_memAbove (Nat.le_of_lt lt) h] at this
      subst key
      have hb := e a
      simp only [memGet, if_true, Option.some.injEq] at hb
      rw [hb, memAbove_ext h h' fun y hy => ?_]
      have := e y
      simpa [memGet, Nat.ne_of_gt hy] using this

/-- The memory of the reset state is in canonical form. -/
theorem reset_mem_wf : Memory.wf State.reset.mem = true := rfl

end Sys2Proof.Machine
end

