-- ==== Sys2Proof/Laws/Ops.lean ====
section
/-! SUPPORT. What each shared operation can do, said once: sequencing of accesses, the frame of an execution, the read
primitive, and the shape of every form's execution. -/

namespace Sys2Proof.Machine

section Sequencing
variable {α β γ : Type}

@[simp] theorem Access.ok_bind (v : α) (k : α → Access β) : (Access.ok v).bind k = k v := rfl
@[simp] theorem Access.fault_bind (f : Fault) (k : α → Access β) : (Access.fault f).bind k = .fault f := rfl
@[simp] theorem Access.refuse_bind (r : Refusal) (k : α → Access β) : (Access.refuse r).bind k = .refuse r := rfl

@[simp] theorem Access.bind_bind (x : Access α) (k : α → Access β) (l : β → Access γ) :
    (x.bind k).bind l = x.bind fun v => (k v).bind l := by
  cases x <;> rfl

theorem Access.bind_eq_ok {x : Access α} {k : α → Access β} {w : β} :
    x.bind k = .ok w ↔ ∃ v, x = .ok v ∧ k v = .ok w := by
  cases x <;> simp [Access.bind]

theorem Access.bind_eq_fault {x : Access α} {k : α → Access β} {f : Fault} :
    x.bind k = .fault f ↔ x = .fault f ∨ ∃ v, x = .ok v ∧ k v = .fault f := by
  cases x <;> simp [Access.bind]

theorem Access.bind_eq_refuse {x : Access α} {k : α → Access β} {r : Refusal} :
    x.bind k = .refuse r ↔ x = .refuse r ∨ ∃ v, x = .ok v ∧ k v = .refuse r := by
  cases x <;> simp [Access.bind]

@[simp] theorem Access.finish_ok (t : State) : (Access.ok t).finish = .next t := rfl
@[simp] theorem Access.finish_fault (f : Fault) : (Access.fault f : Access State).finish = .fault f := rfl
@[simp] theorem Access.finish_refuse (r : Refusal) : (Access.refuse r : Access State).finish = .refused r := rfl

theorem Access.finish_eq_next {x : Access State} {t : State} : x.finish = .next t ↔ x = .ok t := by
  cases x <;> simp [Access.finish, raise]

theorem Access.finish_eq_fault {x : Access State} {f : Fault} : x.finish = .fault f ↔ x = .fault f := by
  cases x <;> simp [Access.finish, raise]

end Sequencing

/-! ### The frame of an execution (R156) -/

section Frame
variable {f : Form} {lock : Bool} {dst : Reg} {src : Source} {s t : State} {body : Word64 → Access State}

/-- A form that has an encoding in the mode, with SSE4_2 = 1 and no LOCK prefix, is its body at `pc_next`. -/
theorem runForm_of_ready (hw : f.wellFormed s.mode dst src = true) (hs : s.sse42 = true) :
    runForm f false dst src s body = (body (s.nextPc f false src)).finish := by
  simp [runForm, hw, hs]

/-- When the frame answers a next state, the form is encodable, SSE4_2 = 1, no LOCK prefix stands, and the next state is
its body's. -/
theorem runForm_eq_next :
    runForm f lock dst src s body = .next t ↔
      f.wellFormed s.mode dst src = true ∧ s.sse42 = true ∧ lock = false ∧ body (s.nextPc f lock src) = .ok t := by
  unfold runForm
  split
  · split
    · simp_all [Access.finish_eq_next]
    · simp_all [raise]
  · simp_all

/-- When the frame answers a fault, it is `#UD` for one of its two causes, or its body's. -/
theorem runForm_eq_fault {e : Fault} :
    runForm f lock dst src s body = .fault e ↔
      f.wellFormed s.mode dst src = true ∧
        ((s.sse42 = false ∨ lock = true) ∧ e = .ud ∨
          s.sse42 = true ∧ lock = false ∧ body (s.nextPc f lock src) = .fault e) := by
  unfold runForm
  split
  · split
    · simp_all [Access.finish_eq_fault]
    · next hw h =>
      have hc : s.sse42 = false ∨ lock = true := by
        cases hs : s.sse42
        · exact .inl rfl
        · exact .inr (by simpa [hs] using h)
      constructor
      · intro he
        cases he
        exact ⟨hw, .inl ⟨hc, rfl⟩⟩
      · rintro ⟨-, ⟨-, rfl⟩ | ⟨h1, h2, -⟩⟩
        · rfl
        · rcases hc with h3 | h3 <;> simp_all
  · simp_all

end Frame

/-! ### The shape of every form's execution -/

@[simp] theorem State.source_reg (s : State) (n : Nat) (view : Reg → BitVec n) (next : Word64) (i : Reg) :
    s.source n view next (.reg i) = .ok (view i) := rfl

@[simp] theorem State.source_mem (s : State) (n : Nat) (view : Reg → BitVec n) (next : Word64) (o : MemOperand) :
    s.source n view next (.mem o) =
      (s.memRead (operandSegment o) (s.ea next o) (n / 8)).bind fun v => .ok (BitVec.ofNat n v) := rfl

/-- With a register source a form writes its destination and pc, and nothing can fail. -/
theorem exec_of_reg (i : Instr) (s : State) {r : Reg} (h : i.src = .reg r) :
    ∃ w : Word64, exec i s =
      runForm i.form i.lock i.dst i.src s fun next => .ok ((s.setReg i.dst w).setPc next) := by
  cases i <;> (simp only [Instr.src] at h; subst h; exact ⟨_, rfl⟩)

/-- With a memory source a form reads its operand, then writes its destination and pc. -/
theorem exec_of_mem (i : Instr) (s : State) {o : MemOperand} (h : i.src = .mem o) :
    ∃ w : Nat → Word64, exec i s =
      runForm i.form i.lock i.dst i.src s fun next =>
        (s.memRead (operandSegment o) (s.ea next o) i.form.srcBytes).bind fun v =>
          .ok ((s.setReg i.dst (w v)).setPc next) := by
  cases i <;>
    (simp only [Instr.src] at h; subst h
     simp only [exec, execCrc32R32Rm8, execCrc32R32Rm8Rex, execCrc32R32Rm16, execCrc32R32Rm32, execCrc32R64Rm8,
       execCrc32R64Rm64, execCrc32R32Rm16Rex, execCrc32R32Rm32Rex, State.source_mem, Access.bind_bind, Access.ok_bind]
     exact ⟨_, rfl⟩)

/-- All an execution can do: when it answers a next state, the form is encodable in the mode, SSE4_2 = 1, no LOCK
prefix stands, and only the destination register and pc are written. -/
theorem exec_next {i : Instr} {s t : State} (h : exec i s = .next t) :
    i.wellFormed s.mode = true ∧ s.sse42 = true ∧ i.lock = false ∧
      ∃ w : Word64, t = (s.setReg i.dst w).setPc (s.nextPc i.form i.lock i.src) := by
  cases hs : i.src with
  | reg r =>
    obtain ⟨w, e⟩ := exec_of_reg i s hs
    rw [e, runForm_eq_next] at h
    obtain ⟨h1, h2, h3, h4⟩ := h
    exact ⟨h1, h2, h3, w, (by simpa [hs] using h4.symm)⟩
  | mem o =>
    obtain ⟨w, e⟩ := exec_of_mem i s hs
    rw [e, runForm_eq_next] at h
    obtain ⟨h1, h2, h3, h4⟩ := h
    obtain ⟨v, -, h5⟩ := Access.bind_eq_ok.1 h4
    exact ⟨h1, h2, h3, w v, (by simpa [hs] using h5.symm)⟩

/-! ### The read primitive (R53) -/

/-- A read that succeeds: its linear address, the physical address of each byte, no alignment check, the bytes. -/
theorem memRead_eq_ok {s : State} {g : Seg} {ea : Word64} {n v : Nat} :
    s.memRead g ea n = .ok v ↔
      ∃ la ps bs, s.linear g ea n = .ok la ∧ s.physicals ((List.range n).map (s.byteAddr la)) = .ok ps ∧
        s.misaligned la n = false ∧ memGets s.mem ps = some bs ∧ littleEndian bs = v := by
  simp only [State.memRead, State.readLinear, Access.bind_eq_ok]
  constructor
  · rintro ⟨la, h1, ps, h2, h3⟩
    split at h3
    · cases h3
    · next hm =>
      split at h3
      · cases h3
      · next bs hb => cases h3; exact ⟨la, ps, bs, h1, h2, by simpa using hm, hb, rfl⟩
  · rintro ⟨la, ps, bs, h1, h2, h3, h4, rfl⟩
    exact ⟨la, h1, ps, h2, by simp [h3, h4]⟩

/-- A read that raises an exception: the segment, bound or canonical check; the first byte that does not translate; or
the alignment check, in this order (R179). -/
theorem memRead_eq_fault {s : State} {g : Seg} {ea : Word64} {n : Nat} {f : Fault} :
    s.memRead g ea n = .fault f ↔
      s.linear g ea n = .fault f ∨
        ∃ la, s.linear g ea n = .ok la ∧
          (s.physicals ((List.range n).map (s.byteAddr la)) = .fault f ∨
            ∃ ps, s.physicals ((List.range n).map (s.byteAddr la)) = .ok ps ∧ s.misaligned la n = true ∧ f = .ac0) := by
  simp only [State.memRead, State.readLinear, Access.bind_eq_fault]
  constructor
  · rintro (h | ⟨la, h1, h | ⟨ps, h2, h3⟩⟩)
    · exact .inl h
    · exact .inr ⟨la, h1, .inl h⟩
    · split at h3
      · next hm => exact .inr ⟨la, h1, .inr ⟨ps, h2, hm, by cases h3; rfl⟩⟩
      · split at h3 <;> cases h3
  · rintro (h | ⟨la, h1, h | ⟨ps, h2, h3, rfl⟩⟩)
    · exact .inl h
    · exact .inr ⟨la, h1, .inl h⟩
    · exact .inr ⟨la, h1, .inr ⟨ps, h2, by simp [h3]⟩⟩

/-- Translating bytes one by one succeeds when each byte translates. -/
theorem physicals_eq_ok {s : State} {las : List Word64} {ps : List Nat} :
    s.physicals las = .ok ps ↔ List.Forall₂ (fun la p => s.physical la = .ok p) las ps := by
  induction las generalizing ps with
  | nil => simp [State.physicals, eq_comm]
  | cons la las ih =>
    simp only [State.physicals, Access.bind_eq_ok, List.forall₂_cons_left_iff, ih]
    constructor
    · rintro ⟨p, hp, qs, hq, h⟩
      cases h
      exact ⟨p, qs, hp, hq, rfl⟩
    · rintro ⟨p, qs, hp, hq, rfl⟩
      exact ⟨p, hp, qs, hq, rfl⟩

/-- The exception of a translation is that of the lowest byte that does not translate (R63). -/
theorem physicals_eq_fault {s : State} {las : List Word64} {f : Fault} :
    s.physicals las = .fault f ↔
      ∃ pre la post, las = pre ++ la :: post ∧ (∀ x ∈ pre, ∃ p, s.physical x = .ok p) ∧ s.physical la = .fault f := by
  induction las with
  | nil => simp [State.physicals]
  | cons la las ih =>
    simp only [State.physicals, Access.bind_eq_fault, ih]
    constructor
    · rintro (h | ⟨p, hp, ⟨pre, x, post, rfl, hpre, hx⟩ | ⟨ps, -, h⟩⟩)
      · exact ⟨[], la, las, rfl, by simp, h⟩
      · refine ⟨la :: pre, x, post, rfl, ?_, hx⟩
        intro y hy
        rcases List.mem_cons.1 hy with rfl | hy
        · exact ⟨p, hp⟩
        · exact hpre y hy
      · cases h
    · rintro ⟨pre, x, post, e, hpre, hx⟩
      cases pre with
      | nil => cases e; exact .inl hx
      | cons y pre =>
        cases e
        obtain ⟨p, hp⟩ := hpre la (by simp)
        exact .inr ⟨p, hp, .inl ⟨pre, x, post, rfl, fun z hz => hpre z (by simp [hz]), hx⟩⟩

/-- The bytes at some physical addresses, when the memory holds each. -/
theorem memGets_eq_some {m : List Host.Cell} {ps : List Nat} {bs : List Byte} :
    memGets m ps = some bs ↔ List.Forall₂ (fun p b => memGet m p = some b) ps bs := by
  induction ps generalizing bs with
  | nil => simp [memGets, eq_comm]
  | cons p ps ih =>
    simp only [memGets, List.forall₂_cons_left_iff]
    constructor
    · intro h
      split at h
      · next b cs hb hc => cases h; exact ⟨b, cs, hb, ih.1 hc, rfl⟩
      · cases h
    · rintro ⟨b, cs, hb, hc, rfl⟩
      simp [hb, ih.2 hc]

theorem littleEndian_lt (bs : List Byte) : littleEndian bs < 256 ^ bs.length := by
  induction bs with
  | nil => simp [littleEndian]
  | cons b bs ih =>
    have := b.isLt
    simp only [littleEndian, List.length_cons, Nat.pow_succ]
    omega

end Sys2Proof.Machine
end

