-- ==== Sys2Proof/Laws/PerInstr.lean ====
section
/-! SUPPORT. Statements for all instructions, one lemma per constructor. -/

namespace Sys2Proof

@[simp] theorem Disp.length_bytes (d : Disp) : d.bytes.length = d.size := by cases d <;> rfl

@[simp] theorem Disp16.length_bytes (d : Disp16) : d.bytes.length = d.size := by cases d <;> rfl

@[simp] theorem AddrForm.length_encode (a : AddrForm) : a.encode.2.2.length = a.size := by
  cases a <;> simp [AddrForm.encode, AddrForm.size, Nat.add_comm] <;> rfl

@[simp] theorem Source.length_encode (s : Source) : s.encode.2.2.length = s.size := by
  cases s <;> simp [Source.encode, Source.size]

/-- The bytes of a row are as many as R100 counts. -/
theorem Form.length_encode (c : CodeContext) (f : Form) (lock : Bool) (dst : Reg) (src : Source) :
    (f.encode c lock dst src).length = f.len c lock src := by
  simp only [Form.encode, legacyBytes, overrideBytes, rexBytes, Form.len]
  cases lock <;> cases f.needs66 c <;> cases src.needs67 c <;> cases src.override <;> cases f.hasRex <;>
    simp <;> omega

namespace Laws.EncodeLength

/-- In every context the encoder writes as many bytes as the instruction's length (R100). -/
def Statement (i : Instr) : Prop := ∀ c : CodeContext, (encode c i).length = i.len c

theorem crc32R32Rm8 (lock : Bool) (dst : Reg) (src : Source) : Statement (.crc32R32Rm8 lock dst src) :=
  fun c => Form.length_encode c _ lock dst src

theorem crc32R32Rm8Rex (lock : Bool) (dst : Reg) (src : Source) : Statement (.crc32R32Rm8Rex lock dst src) :=
  fun c => Form.length_encode c _ lock dst src

theorem crc32R32Rm16 (lock : Bool) (dst : Reg) (src : Source) : Statement (.crc32R32Rm16 lock dst src) :=
  fun c => Form.length_encode c _ lock dst src

theorem crc32R32Rm32 (lock : Bool) (dst : Reg) (src : Source) : Statement (.crc32R32Rm32 lock dst src) :=
  fun c => Form.length_encode c _ lock dst src

theorem crc32R64Rm8 (lock : Bool) (dst : Reg) (src : Source) : Statement (.crc32R64Rm8 lock dst src) :=
  fun c => Form.length_encode c _ lock dst src

theorem crc32R64Rm64 (lock : Bool) (dst : Reg) (src : Source) : Statement (.crc32R64Rm64 lock dst src) :=
  fun c => Form.length_encode c _ lock dst src

theorem crc32R32Rm16Rex (lock : Bool) (dst : Reg) (src : Source) : Statement (.crc32R32Rm16Rex lock dst src) :=
  fun c => Form.length_encode c _ lock dst src

theorem crc32R32Rm32Rex (lock : Bool) (dst : Reg) (src : Source) : Statement (.crc32R32Rm32Rex lock dst src) :=
  fun c => Form.length_encode c _ lock dst src

end Laws.EncodeLength

end Sys2Proof
end

