-- ==== Sys2Proof/Laws/Step.lean ====
section
/-! SUPPORT. What a step can do, said once. -/

namespace Sys2Proof.Machine

section Outcomes
variable (g : State → State) (c : BitVec 2) (t : State) (f : Fault) (r : Refusal)

@[simp] theorem onNext_next : onNext g (.next t) = .next (g t) := rfl
@[simp] theorem onNext_fault : onNext g (.fault f) = .fault f := rfl
@[simp] theorem onNext_refused : onNext g (.refused r) = .refused r := rfl

@[simp] theorem atLevel_next : atLevel c (.next t) = .next { t with cpl := c } := rfl
@[simp] theorem atLevel_refused : atLevel c (.refused r) = .refused r := rfl
@[simp] theorem atLevel_pf (code : BitVec 32) (a : Word64) :
    atLevel c (.fault (.pf code a)) = .fault (.pf (if c = 3 then 4 else 0) a) := rfl

/-- Every exception but a page fault is the same at every level. -/
theorem atLevel_fault_of_ne {f : Fault} (h : ∀ code a, f ≠ .pf code a) : atLevel c (.fault f) = .fault f := by
  cases f <;> first | rfl | exact absurd rfl (h _ _)

end Outcomes

/-- A fetch that gives an instruction: no fault recorded, mode and CPL coherent, pc inside the text, the bytes at pc
decode to it, and pc stays below the mode's limit. -/
theorem fetch_eq_ok {s : State} {i : Instr} :
    s.fetch = .ok i ↔
      s.faultRecord = none ∧ s.coherent = true ∧ s.atEnd = false ∧ s.text ≠ [] ∧
        (∃ rest, decode s.context s.text = .ok (i, rest)) ∧ s.pc.toNat + i.len s.context < pcLimit s.mode := by
  unfold State.fetch
  cases hr : s.faultRecord with
  | some f => simp
  | none =>
    cases hc : s.coherent
    · simp
    cases he : s.atEnd
    · cases ht : s.text with
      | nil => simp
      | cons b bs =>
        cases hd : decode s.context (b :: bs) with
        | error e => simp
        | ok p =>
          obtain ⟨j, rest⟩ := p
          by_cases hl : s.pc.toNat + j.len s.context < pcLimit s.mode
          · constructor
            · intro h
              simp [hl] at h
              subst h
              simpa using hl
            · rintro ⟨-, -, -, -, ⟨rest', e⟩, -⟩
              cases e
              simp [hl]
          · constructor
            · intro h
              simp [hl] at h
            · rintro ⟨-, -, -, -, ⟨rest', e⟩, h⟩
              cases e
              exact absurd h hl
    · simp

/-- All a step can do: a next state comes from an instruction fetched at pc, and only that instruction's destination
register and pc are written. -/
theorem step_next {s t : State} (h : step s = .next t) :
    ∃ i, s.fetch = .ok i ∧ exec i s = .next t ∧
      ∃ w : Word64, t = (s.setReg i.dst w).setPc (s.nextPc i.form i.lock i.src) := by
  unfold step at h
  cases hf : s.fetch with
  | ok i =>
    rw [hf] at h
    obtain ⟨-, -, -, w, hw⟩ := exec_next h
    exact ⟨i, rfl, h, w, hw⟩
  | fault f => rw [hf] at h; cases h
  | refuse r => rw [hf] at h; cases h

end Sys2Proof.Machine
end

