-- ==== Sys2Proof/Tests/Slice0.lean ====
section
/-! SUPPORT. Tests of the model on fixed values, every expected result taken from spec/95_test_vectors.md or worked out
from the rules by hand; and, for every obligation with hypotheses, a state and operands that meet them. -/

namespace Sys2Proof.Tests

open Sys2Proof.Machine

-- one theorem after another: a hundred kernel evaluations at once ask for more threads than the memory limit admits
set_option Elab.async false

/-! ### Helpers -/

/-- A launch state with some registers, bytes of data memory from an address on, and a program text. -/
def start (regs : List (Reg × Word64)) (base : Nat) (bytes text : List Byte) : State :=
  { State.reset with regs := regs.foldl (fun g p => g.set p.1 p.2) Gprs.zero, mem := memLoad [] base bytes, code := text }

/-- The eight bytes at 1000H of 95_test_vectors.md section 4. -/
def bytes8 : List Byte := [0xEF, 0xCD, 0xAB, 0x89, 0x67, 0x45, 0x23, 0x01]

/-- The start state of 95_test_vectors.md section 4: RAX, the bytes at 1000H, and one more register. -/
def startAt (r : Reg) (v : Word64) (text : List Byte) : State :=
  start [(.rax, 0xAAAAAAAA12345678), (r, v)] 0x1000 bytes8 text

def nextOf : Host.Outcome State Fault Refusal → Option State
  | .next t => some t
  | .fault _ => none
  | .refused _ => none

def faultOf : Host.Outcome State Fault Refusal → Option Fault
  | .next _ => none
  | .fault f => some f
  | .refused _ => none

def refusalOf : Host.Outcome State Fault Refusal → Option Refusal
  | .next _ => none
  | .fault _ => none
  | .refused r => some r

theorem eq_fault {o : Host.Outcome State Fault Refusal} {f : Fault} (h : faultOf o = some f) : o = .fault f := by
  cases o <;> simp_all [faultOf]

theorem exists_next {o : Host.Outcome State Fault Refusal} (h : (nextOf o).isSome = true) : ∃ t, o = .next t := by
  cases o <;> simp_all [nextOf]

/-- A register and pc after one step. -/
def after (s : State) (r : Reg) : Option (Word64 × Word64) := (nextOf (step s)).map fun t => (t.r64 r, t.pc)

/-- The 64-bit mode context, and the contexts of the other modes. -/
def ctx64 : CodeContext := { mode := .mode64, csD := .d32 }
def ctx32 : CodeContext := { mode := .prot, csD := .d32 }
def ctx16 : CodeContext := { mode := .real, csD := .d16 }

/-- A memory source without an override. -/
def mem (a : AddrSize) (f : AddrForm) : Source := .mem { asize := a, override := none, form := f }

/-- `[rsi]`. -/
def atRsi : MemOperand := { asize := .a64, override := none, form := .base .rsi .absent }

/-! ### WellFormed refuses what has no encoding, one term for each check -/

theorem test_wf_rex_row_outside_64_bit_mode : Instr.wellFormed .prot (.crc32R64Rm64 false .rax (.reg .rcx)) = false := by decide
theorem test_wf_destination_needs_rex : Instr.wellFormed .mode64 (.crc32R32Rm32 false .r8 (.reg .rcx)) = false := by decide
theorem test_wf_source_needs_rex : Instr.wellFormed .mode64 (.crc32R32Rm32 false .rax (.reg .r9)) = false := by decide
theorem test_wf_base_needs_rex : Instr.wellFormed .mode64 (.crc32R32Rm32 false .rax (mem .a64 (.base .r9 .absent))) = false := by decide
theorem test_wf_index_needs_rex :
    Instr.wellFormed .mode64 (.crc32R32Rm32 false .rax (mem .a64 (.sib .rax (some { reg := .r9, scale := .x1 }) .absent))) = false := by decide
theorem test_wf_no_rsp_index :
    Instr.wellFormed .mode64 (.crc32R32Rm32 false .rax (mem .a64 (.sib .rax (some { reg := .rsp, scale := .x1 }) .absent))) = false := by decide
theorem test_wf_no_rsp_index_without_base :
    Instr.wellFormed .mode64 (.crc32R32Rm32 false .rax (mem .a64 (.sibNoBase (some { reg := .rsp, scale := .x1 }) 0))) = false := by decide
theorem test_wf_rsp_base_needs_sib : Instr.wellFormed .mode64 (.crc32R32Rm32 false .rax (mem .a64 (.base .rsp .absent))) = false := by decide
theorem test_wf_r12_base_needs_sib : Instr.wellFormed .mode64 (.crc32R64Rm64 false .rax (mem .a64 (.base .r12 .absent))) = false := by decide
theorem test_wf_rbp_base_needs_displacement : Instr.wellFormed .mode64 (.crc32R32Rm32 false .rax (mem .a64 (.base .rbp .absent))) = false := by decide
theorem test_wf_r13_base_needs_displacement : Instr.wellFormed .mode64 (.crc32R64Rm64 false .rax (mem .a64 (.sib .r13 none .absent))) = false := by decide
theorem test_wf_rip_relative_in_64_bit_mode_only : Instr.wellFormed .prot (.crc32R32Rm32 false .rax (mem .a32 (.ripRelative 0))) = false := by decide
theorem test_wf_absolute_outside_64_bit_mode_only : Instr.wellFormed .mode64 (.crc32R32Rm32 false .rax (mem .a64 (.absolute 0))) = false := by decide
theorem test_wf_16_bit_forms_at_16_bits_only : Instr.wellFormed .prot (.crc32R32Rm32 false .rax (mem .a32 (.base16 .si .absent))) = false := by decide
theorem test_wf_16_bit_absolute_at_16_bits_only : Instr.wellFormed .prot (.crc32R32Rm32 false .rax (mem .a32 (.absolute16 0))) = false := by decide
theorem test_wf_no_32_bit_forms_at_16_bits : Instr.wellFormed .prot (.crc32R32Rm32 false .rax (mem .a16 (.base .rsi .absent))) = false := by decide
theorem test_wf_bp_base_needs_displacement : Instr.wellFormed .real (.crc32R32Rm32 false .rax (mem .a16 (.base16 .bp .absent))) = false := by decide
theorem test_wf_no_16_bit_addresses_in_64_bit_mode : Instr.wellFormed .mode64 (.crc32R32Rm32 false .rax (mem .a16 (.base16 .si .absent))) = false := by decide
theorem test_wf_no_64_bit_addresses_outside_64_bit_mode : Instr.wellFormed .compat (.crc32R32Rm32 false .rax (mem .a64 (.base .rsi .absent))) = false := by decide
theorem test_wf_no_ss_override_in_64_bit_mode :
    Instr.wellFormed .mode64 (.crc32R32Rm32 false .rax (.mem { asize := .a64, override := some .ss, form := .base .rsi .absent })) = false := by decide

/-! ### Words written out from the encodings (95_test_vectors.md section 3), every row and every address form -/

theorem test_decode_r32rm8 : decode ctx64 [0xF2, 0x0F, 0x38, 0xF0, 0xC3] = .ok (.crc32R32Rm8 false .rax (.reg .rbx), []) := by rfl
theorem test_decode_r32rm8_rex : decode ctx64 [0xF2, 0x40, 0x0F, 0x38, 0xF0, 0xC7] = .ok (.crc32R32Rm8Rex false .rax (.reg .rdi), []) := by rfl
theorem test_decode_r32rm8_rex_b : decode ctx64 [0xF2, 0x41, 0x0F, 0x38, 0xF0, 0xC1] = .ok (.crc32R32Rm8Rex false .rax (.reg .r9), []) := by rfl
theorem test_decode_r32rm16 : decode ctx64 [0x66, 0xF2, 0x0F, 0x38, 0xF1, 0xC1] = .ok (.crc32R32Rm16 false .rax (.reg .rcx), []) := by rfl
theorem test_decode_r32rm32 : decode ctx64 [0xF2, 0x0F, 0x38, 0xF1, 0xC1] = .ok (.crc32R32Rm32 false .rax (.reg .rcx), []) := by rfl
theorem test_decode_r64rm8 : decode ctx64 [0xF2, 0x48, 0x0F, 0x38, 0xF0, 0xC1] = .ok (.crc32R64Rm8 false .rax (.reg .rcx), []) := by rfl
theorem test_decode_r64rm64 : decode ctx64 [0xF2, 0x4D, 0x0F, 0x38, 0xF1, 0xD3] = .ok (.crc32R64Rm64 false .r10 (.reg .r11), []) := by rfl
theorem test_decode_r32rm16_rex : decode ctx64 [0x66, 0xF2, 0x41, 0x0F, 0x38, 0xF1, 0xC0] = .ok (.crc32R32Rm16Rex false .rax (.reg .r8), []) := by rfl
theorem test_decode_r32rm32_rex : decode ctx64 [0xF2, 0x41, 0x0F, 0x38, 0xF1, 0xC0] = .ok (.crc32R32Rm32Rex false .rax (.reg .r8), []) := by rfl
theorem test_decode_lock : decode ctx64 [0xF0, 0xF2, 0x0F, 0x38, 0xF1, 0xC1] = .ok (.crc32R32Rm32 true .rax (.reg .rcx), []) := by rfl
theorem test_decode_operand_size_flips_at_16_bits : decode ctx16 [0xF2, 0x0F, 0x38, 0xF1, 0xC1] = .ok (.crc32R32Rm16 false .rax (.reg .rcx), []) := by rfl
theorem test_decode_66_at_16_bits : decode ctx16 [0x66, 0xF2, 0x0F, 0x38, 0xF1, 0xC1] = .ok (.crc32R32Rm32 false .rax (.reg .rcx), []) := by rfl
theorem test_decode_base : decode ctx64 [0xF2, 0x0F, 0x38, 0xF0, 0x06] = .ok (.crc32R32Rm8 false .rax (.mem atRsi), []) := by rfl
theorem test_decode_disp32 : decode ctx64 [0xF2, 0x0F, 0x38, 0xF1, 0x86, 0x78, 0x56, 0x34, 0x12] =
    .ok (.crc32R32Rm32 false .rax (mem .a64 (.base .rsi (.d32 0x12345678))), []) := by rfl
theorem test_decode_sib : decode ctx64 [0xF2, 0x0F, 0x38, 0xF1, 0x44, 0x8E, 0x10] =
    .ok (.crc32R32Rm32 false .rax (mem .a64 (.sib .rsi (some { reg := .rcx, scale := .x4 }) (.d8 0x10))), []) := by rfl
theorem test_decode_sib_no_index : decode ctx64 [0xF2, 0x0F, 0x38, 0xF1, 0x04, 0x24] =
    .ok (.crc32R32Rm32 false .rax (mem .a64 (.sib .rsp none .absent)), []) := by rfl
theorem test_decode_sib_no_base : decode ctx64 [0xF2, 0x0F, 0x38, 0xF1, 0x04, 0xCD, 0x00, 0x10, 0x00, 0x00] =
    .ok (.crc32R32Rm32 false .rax (mem .a64 (.sibNoBase (some { reg := .rcx, scale := .x8 }) 0x1000)), []) := by rfl
theorem test_decode_rip_relative : decode ctx64 [0xF2, 0x0F, 0x38, 0xF1, 0x05, 0x00, 0x01, 0x00, 0x00] =
    .ok (.crc32R32Rm32 false .rax (mem .a64 (.ripRelative 0x100)), []) := by rfl
theorem test_decode_absolute : decode ctx32 [0xF2, 0x0F, 0x38, 0xF1, 0x05, 0x00, 0x01, 0x00, 0x00] =
    .ok (.crc32R32Rm32 false .rax (mem .a32 (.absolute 0x100)), []) := by rfl
theorem test_decode_16_bit_address : decode ctx16 [0xF2, 0x0F, 0x38, 0xF1, 0x40, 0x80] =
    .ok (.crc32R32Rm16 false .rax (mem .a16 (.base16 .bxSi (.d8 0x80))), []) := by rfl
theorem test_decode_16_bit_absolute : decode ctx16 [0xF2, 0x0F, 0x38, 0xF0, 0x0E, 0x34, 0x12] =
    .ok (.crc32R32Rm8 false .rcx (mem .a16 (.absolute16 0x1234)), []) := by rfl
theorem test_decode_longest : decode ctx64 [0x66, 0x67, 0x64, 0xF2, 0x41, 0x0F, 0x38, 0xF1, 0x84, 0x88, 0x78, 0x56, 0x34, 0x12] =
    .ok (.crc32R32Rm16Rex false .rax
      (.mem { asize := .a32, override := some .fs, form := .sib .r8 (some { reg := .rcx, scale := .x4 }) (.d32 0x12345678) }), []) := by rfl
theorem test_encode_longest : encode ctx64 (.crc32R32Rm16Rex false .rax
      (.mem { asize := .a32, override := some .fs, form := .sib .r8 (some { reg := .rcx, scale := .x4 }) (.d32 0x12345678) })) =
    [0x66, 0x67, 0x64, 0xF2, 0x41, 0x0F, 0x38, 0xF1, 0x84, 0x88, 0x78, 0x56, 0x34, 0x12] := by decide
theorem test_table_word_f0 : decodeTableWord 24 0x0F38F0 = some (.crc32R32Rm8 false .rax (mem .a64 (.base .rax .absent))) := by rfl
theorem test_table_word_f1 : decodeTableWord 24 0x0F38F1 = some (.crc32R32Rm32 false .rax (mem .a64 (.base .rax .absent))) := by rfl
theorem test_table_word_is_the_first_step :
    (State.reset.withFetchWord 24 0x0F38F0).fetch = .ok (.crc32R32Rm8 false .rax (mem .a64 (.base .rax .absent))) := by rfl

/-! ### One step of each instruction (95_test_vectors.md section 4) -/

-- V2, V3
theorem test_r32rm8_ah : after (start [(.rax, 0xAAAAAAAA12349A78)] 0 [] [0xF2, 0x0F, 0x38, 0xF0, 0xC4]) .rax = some (0x219EC77, 5) := by decide +kernel
theorem test_r32rm8_bh : after (start [(.rax, 0xAAAAAAAA12345678), (.rbx, 0x9A00), (.rdi, 0x55)] 0 [] [0xF2, 0x0F, 0x38, 0xF0, 0xC7]) .rax = some (0x219ECBB, 5) := by decide +kernel
-- V4, V6
theorem test_r32rm8_rex_dil : after (start [(.rax, 0xAAAAAAAA12345678), (.rbx, 0x9A00), (.rdi, 0x55)] 0 [] [0xF2, 0x40, 0x0F, 0x38, 0xF0, 0xC7]) .rax = some (0x9F87F65B, 6) := by decide +kernel
theorem test_r32rm8_rex_r8d : after (start [(.r8, 0xAAAAAAAA12345678), (.rcx, 0x9A)] 0 [] [0xF2, 0x44, 0x0F, 0x38, 0xF0, 0xC1]) .r8 = some (0x219ECBB, 6) := by decide +kernel
-- V7, V16
theorem test_r32rm16_cx : after (startAt .rcx 0xFFFFCDEF [0x66, 0xF2, 0x0F, 0x38, 0xF1, 0xC1]) .rax = some (0xB54A8725, 6) := by decide +kernel
theorem test_r32rm16_memory : after (startAt .rsi 0x1000 [0x66, 0xF2, 0x0F, 0x38, 0xF1, 0x06]) .rax = some (0xB54A8725, 6) := by decide +kernel
-- V8, V21
theorem test_r32rm32_ecx : after (startAt .rcx 0xFFFFFFFF89ABCDEF [0xF2, 0x0F, 0x38, 0xF1, 0xC1]) .rax = some (0xA360621E, 5) := by decide +kernel
theorem test_r32rm32_misaligned_memory : after (startAt .rsi 0x1001 [0xF2, 0x0F, 0x38, 0xF1, 0x06]) .rax = some (0x2B341C1F, 5) := by decide +kernel
-- V9, V19
theorem test_r64rm8_cl : after (startAt .rcx 0x19A [0xF2, 0x48, 0x0F, 0x38, 0xF0, 0xC1]) .rax = some (0x219ECBB, 6) := by decide +kernel
theorem test_r64rm8_memory : after (startAt .rsi 0x1000 [0xF2, 0x48, 0x0F, 0x38, 0xF0, 0x06]) .rax = some (0x4670ACAA, 6) := by decide +kernel
-- V12, V20
theorem test_r64rm64_same_register : after (startAt .rcx 0 [0xF2, 0x48, 0x0F, 0x38, 0xF1, 0xC0]) .rax = some (0x264B0A7F, 6) := by decide +kernel
theorem test_r64rm64_address_register : after (startAt .rax 0x1000 [0xF2, 0x48, 0x0F, 0x38, 0xF1, 0x00]) .rax = some (0x75C3900F, 6) := by decide +kernel
-- the longest completing form of 95_test_vectors.md section 3.2
theorem test_r32rm16_rex_longest :
    after { start [(.rax, 0xAAAAAAAA12345678), (.rcx, 2), (.r8, 0xEDCBB970)] 0x1000 bytes8
      [0x66, 0x67, 0x64, 0xF2, 0x41, 0x0F, 0x38, 0xF1, 0x84, 0x88, 0x78, 0x56, 0x34, 0x12] with fsBase := 0x10 } .rax =
      some (0xB54A8725, 14) := by decide +kernel
-- section 2.2, row (12345678, 0123456789ABCDEF), n = 32
theorem test_r32rm32_rex_r8d : after (startAt .r8 0x0123456789ABCDEF [0xF2, 0x41, 0x0F, 0x38, 0xF1, 0xC0]) .rax = some (0xA360621E, 6) := by decide +kernel

/-! ### Witnesses: the hypotheses of each obligation are met, clause by clause -/

/-- `crc32 eax, ecx`. -/
def eaxEcx : Instr := .crc32R32Rm32 false .rax (.reg .rcx)

/-- `crc32 eax, dword [rsi]` and its operand through SS. -/
def eaxRsi : Instr := .crc32R32Rm32 false .rax (.mem atRsi)
def atRsp : MemOperand := { asize := .a64, override := none, form := .sib .rsp none .absent }
def eaxRsp : Instr := .crc32R32Rm32 false .rax (.mem atRsp)

/-- `crc32 eax, dword [eax]` with 67H in 64-bit mode. -/
def atEax : MemOperand := { asize := .a32, override := none, form := .base .rax .absent }
def eaxEax : Instr := .crc32R32Rm32 false .rax (.mem atEax)

/-- `crc32 eax, dword [esi]` in protected mode, and through SS by EBP. -/
def atEsi : MemOperand := { asize := .a32, override := none, form := .base .rsi .absent }
def atEbp : MemOperand := { asize := .a32, override := none, form := .base .rbp (.d8 0) }
def protEsi : Instr := .crc32R32Rm32 false .rax (.mem atEsi)
def protEbp : Instr := .crc32R32Rm32 false .rax (.mem atEbp)

/-- `crc32 eax, dword [si]` and `[bp+0]` with 16-bit addresses. -/
def atSi : MemOperand := { asize := .a16, override := none, form := .base16 .si .absent }
def atBp : MemOperand := { asize := .a16, override := none, form := .base16 .bp (.d8 0) }
def realSi : Instr := .crc32R32Rm32 false .rax (.mem atSi)
def realBp : Instr := .crc32R32Rm32 false .rax (.mem atBp)

/-- A state in another mode. -/
def inMode (m : Mode) (cpl : BitVec 2) (s : State) : State := { s with mode := m, cpl := cpl, paging := .identity }

/-- Alignment checking on, at privilege level 3. -/
def aligned (s : State) : State := { s with cpl := 3, cr0AM := true, rflags := 0x40002 }

-- encoding
theorem test_witness_DecodeReadsBackEveryEncoding : eaxRsi.wellFormed ctx64.mode = true ∧ protEsi.wellFormed ctx32.mode = true ∧
    realBp.wellFormed ctx16.mode = true := by decide
theorem test_witness_DecodedInstructionsHaveAnEncoding : decode ctx64 [0xF2, 0x0F, 0x38, 0xF1, 0xC1, 0x90] = .ok (eaxEcx, [0x90]) := by rfl
theorem test_witness_LengthsAreFiveToFifteen : eaxEcx.lock = false := by rfl
theorem test_witness_LegacyBytesMayStandInAnyOrder :
    ([0x66, 0xF2, 0x64] : List Byte).Perm [0x64, 0x66, 0xF2] ∧ (∀ b ∈ ([0x66, 0xF2, 0x64] : List Byte), b ∈ legacySet) ∧
      decode ctx64 ([0x66, 0xF2, 0x64] ++ [0x0F, 0x38, 0xF1, 0x06]) =
        .ok (.crc32R32Rm16 false .rax (.mem { asize := .a64, override := some .fs, form := .base .rsi .absent }), []) :=
  ⟨by decide, by decide, rfl⟩
theorem test_witness_RefusedLegacyBytes :
    ((∀ b ∈ ([0xF2, 0xF2] : List Byte), b ∈ legacySet) ∧ ¬([0xF2, 0xF2] : List Byte).Nodup) ∧
      ((∀ b ∈ ([0xF3, 0xF2] : List Byte), b ∈ legacySet) ∧ 0xF3 ∈ ([0xF3, 0xF2] : List Byte)) ∧
        ((∀ b ∈ ([0x64, 0x65] : List Byte), b ∈ legacySet) ∧ 2 ≤ (([0x64, 0x65] : List Byte).filter (· ∈ overrideSet)).length) ∧
          (∀ b ∈ ([0x2E] : List Byte), b ∈ legacySet) ∧ ctx64.mode = .mode64 ∧
            ∃ b ∈ ([0x2E] : List Byte), b ∈ ([0x26, 0x2E, 0x36, 0x3E] : List Byte) := by decide
theorem test_witness_RexOnlyRightBeforeTheOpcodeIn64BitMode :
    (∀ b ∈ ([0xF2] : List Byte), b ∈ legacySet) ∧ isRexByte 0x40 = true ∧ isRexByte 0x4F = true ∧ ctx32.mode ≠ .mode64 ∧
      ctx64.mode = .mode64 ∧ (0x66 : Byte) ≠ 0x0F := by decide
theorem test_witness_WithoutF2NothingDecodes :
    (∀ b ∈ ([0x66] : List Byte), b ∈ legacySet) ∧ 0xF2 ∉ ([0x66] : List Byte) ∧
      ∀ b ∈ ([0x0F, 0x38, 0xF1, 0xC1] : List Byte).head?, b ∉ legacySet := by decide
theorem test_witness_SizePrefixesWithoutMeaningAreRefused :
    (∀ b ∈ ([0x66, 0xF2, 0x67] : List Byte), b ∈ legacySet) ∧ 0x66 ∈ ([0x66, 0xF2, 0x67] : List Byte) ∧
      0x67 ∈ ([0x66, 0xF2, 0x67] : List Byte) ∧ ([0x48] : List Byte).length ≤ 1 ∧ (∀ b ∈ ([0x48] : List Byte), isRexByte b = true) ∧
        (0x48 : Byte).getLsbD 3 = true ∧ (0xC1 : Byte).extractLsb' 6 2 = 3 ∧ ∃ b ∈ ([0x64] : List Byte), b ∈ overrideSet := by decide

-- the function
theorem test_witness_BitReflectReversesTheBits : 0 < 8 ∧ 7 < 8 := by decide
theorem test_witness_Mod2IsTheRemainder :
    polynomial ≠ 0 ∧ 0x1EDC6F41 < 2 ^ polynomial.log2 ∧ 0x100000000 = clmul 1 polynomial ^^^ 0x1EDC6F41 := by decide +kernel
theorem test_witness_InitialValueFoldsIntoTheDatum : 0 ≤ 32 ∧ 32 ≤ 32 := by decide

-- registers and addresses
theorem test_witness_ByteRegisterNames : Reg.num .rbx < 4 := by decide
theorem test_witness_WritingA32BitDestination :
    State.reset.mode = .mode64 ∧ (inMode .prot 0 State.reset).mode ≠ .mode64 ∧ Reg.rcx ≠ Reg.rax := by decide
theorem test_witness_EffectiveAddressIsTheSumModuloTheAddressSize :
    atRsi.wellFormed (startAt .rsi 0x1000 []).mode true = true ∧ atEsi.wellFormed (inMode .prot 0 State.reset).mode false = true ∧
      atBp.wellFormed (inMode .real 0 State.reset).mode false = true := by decide
theorem test_witness_SegmentOfAnOperand :
    ({ asize := .a64, override := some .gs, form := .base .rsi .absent } : MemOperand).override = some .gs ∧ atRsi.override = none := by decide

-- memory
theorem test_witness_LinearAddressOfAnOperand :
    (startAt .rsi 0x1000 []).linear .ds 0xFFFFFFFFFFFFFFFC 4 = .ok 0xFFFFFFFFFFFFFFFC ∧
      (inMode .real 0 State.reset).linear .ds 0xFFFC 4 = .ok 0xFFFC ∧ (inMode .v86 3 State.reset).linear .ds 0xFFFC 4 = .ok 0xFFFC ∧
        (inMode .compat 0 State.reset).linear .ds 0xFFFFFFFC 4 = .ok 0xFFFFFFFC ∧
          (inMode .prot 0 State.reset).linear .ds 0 1 = .ok 0 := by decide +kernel
/-- Linear 1000H to 1FFFH at level 3 lead to physical 5000H on, 2000H to 2FFFH to a protection fault. -/
def mapped : State :=
  { aligned (startAt .rsi 0 []) with
    paging := .table
      [{ first := 0x1000, last := 0x1FFF, cpl := 3, target := .phys 0x5000 },
        { first := 0x2000, last := 0x2FFF, cpl := 3, target := .pageFault { protection := true, reserved := false } }] }
theorem test_witness_PhysicalAddressOfAByte :
    ((inMode .real 0 State.reset).mode = .real ∧ (inMode .real 0 State.reset).physical 0x10FFEF = .ok 0x10FFEF ∧
      State.physical { inMode .real 0 State.reset with a20Masked := true } 0x10FFEF = .ok 0xFFEF) ∧
      (mapped.mode ≠ .real ∧ (inMode .prot 0 State.reset).paging = .identity ∧
        (inMode .prot 0 State.reset).translate 0x1234 = .ok 0x1234) ∧
        ((startAt .rsi 0 []).paging = .admitted ∧ memGet (startAt .rsi 0 []).mem (0x1007 : Word64).toNat = some 0x01 ∧
          (startAt .rsi 0 []).translate 0x1007 = .ok 0x1007) ∧
          mapped.translate 0x1000 = .ok 0x5000 ∧ mapped.translate 0x1FFF = .ok 0x5FFF ∧
            mapped.translate 0x2000 = .fault (.pf 5 0x2000) ∧ mapped.translate 0x3000 = .fault (.pf 4 0x3000) := by decide +kernel
/-- The hypotheses of the two clauses on tables: the second entry decides for 2000H, and no entry holds 3000H. -/
theorem test_witness_PhysicalAddressOfAByte_table :
    (∃ before after e, mapped.paging = .table (before ++ e :: after) ∧ before ≠ [] ∧
        (∀ x ∈ before, ¬(x.cpl = mapped.cpl ∧ x.first ≤ (0x2000 : Word64).toNat ∧ (0x2000 : Word64).toNat ≤ x.last)) ∧
          e.cpl = mapped.cpl ∧ e.first ≤ (0x2000 : Word64).toNat ∧ (0x2000 : Word64).toNat ≤ e.last) ∧
      ∃ es, mapped.paging = .table es ∧
        ∀ x ∈ es, ¬(x.cpl = mapped.cpl ∧ x.first ≤ (0x3000 : Word64).toNat ∧ (0x3000 : Word64).toNat ≤ x.last) :=
  ⟨⟨[_], [], _, rfl, by decide, by decide, by decide, by decide, by decide⟩, _, rfl, by decide⟩
theorem test_witness_ReadCompletesWithTheLittleEndianValue :
    (startAt .rsi 0 []).linear .ds 0x1000 2 = .ok 0x1000 ∧
      (∀ k < 2, (startAt .rsi 0 []).physical ((startAt .rsi 0 []).byteAddr 0x1000 k) = .ok (0x1000 + k)) ∧
        (∀ k < 2, memGet (startAt .rsi 0 []).mem (0x1000 + k) = some (bytes8.getD k 0)) ∧
          (startAt .rsi 0 []).misaligned 0x1000 2 = false := by decide +kernel
theorem test_witness_WideReadsSeeTheSameBytes :
    (startAt .rsi 0 []).mode = .mode64 ∧ 3 < 4 ∧ (startAt .rsi 0 []).memRead .ds 0x1000 4 = .ok 0x89ABCDEF ∧
      (0x1000 : Word64).toNat + 4 ≤ 2 ^ 64 ∧ (inMode .prot 0 (startAt .rsi 0 [])).memRead .ds 0x1000 4 = .ok 0x89ABCDEF := by decide +kernel
theorem test_witness_ReadRefusalsExactly :
    (startAt .rsi 0 []).memRead .ds 0xFFFFFFFFFFFFFFFD 4 = .refuse .operandWraps ∧
      (inMode .mode64 0 (startAt .rsi 0 [])).memRead .ds 0x1006 4 = .refuse .outsideLaunchMemory := by decide +kernel

-- exceptions
theorem test_witness_InvalidOpcodeExactly :
    eaxRsi.wellFormed (startAt .rsi 0x2000 []).mode = true ∧ faultOf (exec (.crc32R32Rm32 true .rax (.mem atRsi)) (startAt .rsi 0x800000000000 [])) = some .ud ∧
      faultOf (exec eaxEcx { startAt .rsi 0 [] with sse42 := false }) = some .ud := by decide +kernel
theorem test_witness_InvalidOpcodeExactly_bytes :
    (∀ b ∈ ([0xF2, 0xF0] : List Byte), b ∈ legacySet) ∧ (∀ b ∈ ([0x0F, 0x38, 0xF1, 0xC1] : List Byte).head?, b ∉ legacySet) ∧
      decode ctx64 ([0xF2, 0xF0] ++ [0x0F, 0x38, 0xF1, 0xC1]) = .ok (.crc32R32Rm32 true .rax (.reg .rcx), []) ∧
        decode ctx64 ([0xF2] ++ [0x0F, 0x38, 0xF1, 0xC1]) = .ok (eaxEcx, []) := ⟨by decide, by decide, rfl, rfl⟩
theorem test_witness_SegmentFaultsExactly :
    ((startAt .rsi 0 []).sse42 = true ∧ eaxRsi.lock = false ∧ eaxRsi.src = .mem atRsi ∧ eaxRsp.src = .mem atRsp) ∧
      (eaxRsi.wellFormed .mode64 = true ∧ faultOf (exec eaxRsi (startAt .rsi 0x800000000000 [])) = some .gp0) ∧
      (eaxRsp.wellFormed .mode64 = true ∧ faultOf (exec eaxRsp (startAt .rsp 0x800000000000 [])) = some .ss0) ∧
      (realSi.wellFormed .real = true ∧ faultOf (exec realSi (inMode .real 0 (startAt .rsi 0xFFFD []))) = some .gp0) ∧
      (realBp.wellFormed .v86 = true ∧ faultOf (exec realBp (inMode .v86 3 (startAt .rbp 0xFFFD []))) = some .ss0) ∧
      (protEsi.wellFormed .prot = true ∧ faultOf (exec protEsi (inMode .prot 0 (startAt .rsi 0xFFFFFFFD []))) = some .gp0) ∧
        (protEbp.wellFormed .compat = true ∧ faultOf (exec protEbp (inMode .compat 0 (startAt .rbp 0xFFFFFFFD []))) = some .ss0) := by decide +kernel
theorem test_witness_PageFaultsExactly :
    (eaxRsi.wellFormed (startAt .rsi 0x1006 []).mode = true ∧ eaxRsi.src = .mem atRsi ∧ (startAt .rsi 0x1006 []).sse42 = true ∧
      eaxRsi.lock = false) ∧ faultOf (exec eaxRsi (startAt .rsi 0x1006 [])) = some (.pf 0 0x1008) := by decide +kernel
theorem test_witness_PageFaultCodes :
    (startAt .rsi 0 []).paging = .admitted ∧ memGet (startAt .rsi 0 []).mem (0x2000 : Word64).toNat = none ∧
      (startAt .rsi 0 []).translate 0x2000 = .fault (.pf 0 0x2000) ∧ (aligned (startAt .rsi 0 [])).translate 0x2000 = .fault (.pf 4 0x2000) := by decide +kernel
theorem test_witness_AlignmentCheckExactly :
    (eaxRsi.wellFormed (aligned (startAt .rsi 0x1001 [])).mode = true ∧ eaxRsi.src = .mem atRsi ∧
      (aligned (startAt .rsi 0x1001 [])).sse42 = true ∧ eaxRsi.lock = false) ∧
      faultOf (exec eaxRsi (aligned (startAt .rsi 0x1001 []))) = some .ac0 := by decide +kernel
theorem test_witness_RealAddressModeExceptions :
    (inMode .real 0 (startAt .rsi 0xFFFD [])).mode = .real ∧ exec realSi (inMode .real 0 (startAt .rsi 0xFFFD [])) = .fault .gp0 :=
  ⟨rfl, eq_fault (by decide +kernel)⟩
theorem test_witness_RegisterSourceRaisesOnlyInvalidOpcode :
    eaxEcx.src = .reg .rcx ∧ exec eaxEcx { startAt .rsi 0 [] with sse42 := false } = .fault .ud := ⟨rfl, eq_fault (by decide +kernel)⟩

-- completion: a readable operand at 1000H, in every width, and the forms of the other modes
theorem test_witness_CompletesR32Rm8 :
    (startAt .rsi 0x1000 []).sse42 = true ∧ Form.wellFormed .mode64 .r32rm8 .rax (.reg .rsp) = true ∧
      Form.wellFormed .mode64 .r32rm8 .rax (.mem atRsi) = true ∧
        (startAt .rsi 0x1000 []).memRead (operandSegment atRsi)
          ((startAt .rsi 0x1000 []).ea ((startAt .rsi 0x1000 []).nextPc .r32rm8 false (.mem atRsi)) atRsi) 1 = .ok 0xEF := by decide +kernel
theorem test_witness_CompletesR32Rm16 :
    (inMode .real 0 (startAt .rsi 0x1000 [])).sse42 = true ∧ Form.wellFormed .real .r32rm16 .rax (.reg .rcx) = true ∧
      Form.wellFormed .real .r32rm16 .rax (.mem atSi) = true ∧
        (inMode .real 0 (startAt .rsi 0x1000 [])).memRead (operandSegment atSi)
          ((inMode .real 0 (startAt .rsi 0x1000 [])).ea ((inMode .real 0 (startAt .rsi 0x1000 [])).nextPc .r32rm16 false (.mem atSi)) atSi) 2 =
          .ok 0xCDEF := by decide +kernel
theorem test_witness_CompletesR32Rm32 :
    (inMode .prot 0 (startAt .rsi 0x1000 [])).sse42 = true ∧ Form.wellFormed .prot .r32rm32 .rax (.reg .rcx) = true ∧
      Form.wellFormed .prot .r32rm32 .rax (.mem atEsi) = true ∧
        (inMode .prot 0 (startAt .rsi 0x1000 [])).memRead (operandSegment atEsi)
          ((inMode .prot 0 (startAt .rsi 0x1000 [])).ea ((inMode .prot 0 (startAt .rsi 0x1000 [])).nextPc .r32rm32 false (.mem atEsi)) atEsi) 4 =
          .ok 0x89ABCDEF := by decide +kernel

/-- The hypotheses of the completion statements of the rows with a REX byte: 64-bit mode, and `n` bytes at 1000H. -/
def rexReady (f : Form) (v : Nat) : Prop :=
  (startAt .rsi 0x1000 []).mode = .mode64 ∧ (startAt .rsi 0x1000 []).sse42 = true ∧
    Form.wellFormed .mode64 f .rax (.mem atRsi) = true ∧
      (startAt .rsi 0x1000 []).memRead (operandSegment atRsi)
        ((startAt .rsi 0x1000 []).ea ((startAt .rsi 0x1000 []).nextPc f false (.mem atRsi)) atRsi) f.srcBytes = .ok v
theorem test_witness_CompletesR32Rm8Rex : rexReady .r32rm8Rex 0xEF := by unfold rexReady; decide +kernel
theorem test_witness_CompletesR64Rm8 : rexReady .r64rm8 0xEF := by unfold rexReady; decide +kernel
theorem test_witness_CompletesR64Rm64 : rexReady .r64rm64 0x0123456789ABCDEF := by unfold rexReady; decide +kernel
theorem test_witness_CompletesR32Rm16Rex : rexReady .r32rm16Rex 0xCDEF := by unfold rexReady; decide +kernel
theorem test_witness_CompletesR32Rm32Rex : rexReady .r32rm32Rex 0x89ABCDEF := by unfold rexReady; decide +kernel
theorem test_witness_FormsWithoutEncodingAreRefused :
    Instr.wellFormed (inMode .prot 0 State.reset).mode (.crc32R64Rm64 false .rax (.reg .rcx)) = false := by decide

-- what an execution leaves alone
theorem test_witness_FrameOfEveryForm : (∃ t, exec eaxRsi (startAt .rsi 0x1000 []) = .next t) ∧ Reg.rsi ≠ eaxRsi.dst ∧ FlagBit.zf ≠ .ac :=
  ⟨exists_next (by decide +kernel), by decide, by decide⟩
theorem test_witness_RflagsIsNotWrittenAndOnlyAcIsRead :
    (∃ t, exec eaxRsi (startAt .rsi 0x1000 []) = .next t) ∧ (0x8D7 : Word64).getLsbD 18 = (startAt .rsi 0x1000 []).rflags.getLsbD 18 :=
  ⟨exists_next (by decide +kernel), by decide⟩
theorem test_witness_UpperHalfOfTheDestinationIsIgnored :
    (startAt .rsi 0x1000 []).mode = .mode64 ∧
      (0xFFFFFFFF12345678 : Word64).extractLsb' 0 32 = ((startAt .rsi 0x1000 []).r64 .rax).extractLsb' 0 32 ∧
        eaxRsi.dst ∉ formRegs atRsi.form ∧ (Reg.rcx ≠ eaxEcx.dst ∨ eaxEcx.form ≠ .r64rm64) ∧
          ((startAt .rax 0x1000 []).mode = .mode64 ∧
            (0xFFFFFFFF00001000 : Word64).extractLsb' 0 32 = ((startAt .rax 0x1000 []).r64 eaxEax.dst).extractLsb' 0 32 ∧
              eaxEax.dst ∈ formRegs atEax.form ∧ atEax.asize ≠ .a64) ∧
            (∃ t, exec eaxEax (startAt .rax 0x1000 []) = .next t) ∧ ∃ t, exec eaxRsi (startAt .rsi 0x1000 []) = .next t :=
  ⟨rfl, by decide, by decide, by decide, by decide, exists_next (by decide +kernel), exists_next (by decide +kernel)⟩
theorem test_witness_OverlappingOperandsReadOldValues :
    (startAt .rax 0x1000 []).mode = .mode64 ∧ (startAt .rax 0x1000 []).sse42 = true ∧ Form.wellFormed .mode64 .r32rm32 .rdi (.reg .rdi) = true ∧
      (startAt .rax 0x1000 []).memRead .ds ((startAt .rax 0x1000 []).r64 .rax) 8 = .ok 0x0123456789ABCDEF := by decide +kernel
theorem test_witness_PrivilegeLevelChangesOnlyPageFaultCodes :
    ((startAt .rsi 0x1000 []).alignCheck = false ∧ ∀ es, (startAt .rsi 0x1000 []).paging ≠ .table es) ∧
      ((inMode .mode64 1 (startAt .rsi 0x1000 [])).cpl ≠ 3 ∧ (2 : BitVec 2) ≠ 3) ∧
        (∃ t, exec eaxRsi (startAt .rsi 0x1000 []) = .next t) ∧
          faultOf (exec eaxRsi (startAt .rsi 0x2000 [])) = some (.pf 0 0x2000) ∧
            faultOf (exec eaxRsi { startAt .rsi 0x2000 [] with cpl := 3 }) = some (.pf 4 0x2000) :=
  ⟨⟨rfl, fun _ h => Paging.noConfusion h⟩, by decide, exists_next (by decide +kernel), by decide +kernel, by decide +kernel⟩

-- steps and runs
/-- `crc32 eax, ecx` as the text at pc. -/
def ready : State := startAt .rcx 0 [0xF2, 0x0F, 0x38, 0xF1, 0xC1]
theorem test_witness_StepRunsTheDecodedInstruction :
    ready.faultRecord = none ∧ ready.coherent = true ∧ ready.codeBase.toNat ≤ ready.pc.toNat ∧
      ready.pc.toNat < ready.codeBase.toNat + ready.code.length ∧
        decode ready.context (ready.code.drop (ready.pc.toNat - ready.codeBase.toNat)) = .ok (eaxEcx, []) ∧
          ready.pc.toNat + eaxEcx.len ready.context < pcLimit ready.mode :=
  ⟨rfl, rfl, by decide, by decide, rfl, by decide⟩
theorem test_witness_StepKeepsTheInvariant : ready.inv = true ∧ ∃ t, step ready = .next t := ⟨by decide +kernel, exists_next (by decide +kernel)⟩
theorem test_witness_StepChangesOnlyTheDestinationAndPc : ∃ t, step ready = .next t := exists_next (by decide +kernel)
theorem test_witness_RunsEndWithinAFifthOfTheText : ready.code.length / 5 < 2 := by decide
theorem test_witness_FaultsAreTerminalAndChangeNothing :
    (ready.recordFault .ud).faultRecord = some .ud ∧ step { ready with sse42 := false } = .fault .ud := ⟨rfl, eq_fault (by decide +kernel)⟩
theorem test_witness_StepRefusals :
    ready.faultRecord = none ∧ refusalOf (step (inMode .v86 2 ready)) = some .incoherentMode ∧
      refusalOf (step (inMode .real 1 ready)) = some .incoherentMode ∧ refusalOf (step { ready with pc := 5 }) = some .runOver ∧
        refusalOf (step { ready with pc := 6 }) = some .pcOutsideText ∧
          refusalOf (step { ready with codeBase := 1 }) = some .pcOutsideText ∧
            refusalOf (step { ready with code := [0x90] }) = some (.undecodable .notCrc32) ∧
              refusalOf (step { ready with code := [0xF2, 0x0F] }) = some (.undecodable .truncated) ∧
                refusalOf (step { ready with pc := 0xFFFFFFFFFFFFFFFB, codeBase := 0xFFFFFFFFFFFFFFFB }) = some .pcWraps := by decide +kernel

end Sys2Proof.Tests
end

section
/-! Proofs for 00_scope.md: the 32-bit destination (R11, R23), sample words (R80 to R96) and terminal faults (R180). -/

namespace Sys2Proof.Machine

/-- R23: what the register written holds after `W32`, whatever it held before. -/
theorem State.w32_get_self (s : State) (i : Reg) (v : Word32) :
    (s.w32 i v).regs.get i = write32 s.mode (s.regs.get i) v := s.regs.get_set_self i _

/-- Settles O22: the register written is `write32` of its old content, whose two halves are known in every mode. -/
theorem writingA32BitDestination : Obligations.WritingA32BitDestination := by
  intro s i v
  rw [State.w32_get_self, write32_high]
  exact ⟨write32_low s.mode _ v, fun h => if_pos h, fun h => if_neg h, fun _ h => s.regs.get_set_of_ne _ h⟩

/-- Settles O9: each word is read by running the decoder, context by context; the last clause also runs over the eight
16-bit register terms. -/
theorem sampleWordsDecode : Obligations.SampleWordsDecode := by
  refine ⟨rfl, rfl, rfl, rfl, rfl, rfl, rfl, rfl, ?code32, ?code16⟩
  case code32 =>
    intro c hc
    fin_cases hc <;> exact ⟨rfl, rfl, rfl, rfl, rfl, rfl⟩
  case code16 =>
    intro c hc
    fin_cases hc
    all_goals
      refine ⟨rfl, rfl, rfl, rfl, rfl, rfl, fun w hw => ?_⟩
      fin_cases hw <;> rfl

/-- R180: a step from a state whose fault record is filled answers that fault, before anything is fetched. -/
theorem step_of_faultRecord {s : State} {f : Fault} (h : s.faultRecord = some f) : step s = .fault f := by
  have hf : s.fetch = .fault f := by simp [State.fetch, h]
  simp [step, hf, raise]

/-- R180, R216: a run whose first step faults stops there, with the fault recorded. -/
theorem runFor_succ_of_fault {s : State} {f : Fault} (k : Nat) (h : step s = .fault f) :
    runFor (k + 1) s = (.fault f, s.recordFault f) := by
  simp [runFor, h]

/-- Settles O56: a recorded fault is answered again, and the run records a fault in the state the step began in. -/
theorem faultsAreTerminalAndChangeNothing : Obligations.FaultsAreTerminalAndChangeNothing :=
  ⟨fun _ _ => step_of_faultRecord, fun _ _ k => runFor_succ_of_fault k⟩

end Sys2Proof.Machine
end

section
/-! Proofs for 10_state.md. First what has an encoding, and one equation for every instruction's execution; then the
instruction pointer, the invariant, registers, memory operands and their exceptions, flags, overlapping operands and
fetching, each part its rules before the statements they settle. -/

namespace Sys2Proof

/-! ### What has an encoding, and its length -/

/-- A row with a REX byte has an encoding in 64-bit mode only (R82). -/
theorem Form.mode_of_wellFormed {m : Mode} {f : Form} {dst : Reg} {src : Source} (hf : f.hasRex = true)
    (h : f.wellFormed m dst src = true) : m = .mode64 := by
  simp only [Form.wellFormed, hf, Bool.not_true, Bool.false_or, Bool.and_eq_true, beq_iff_eq] at h
  obtain ⟨⟨hmode, -⟩, -⟩ := h
  exact hmode

/-- Outside 64-bit mode no instruction that has an encoding writes R8 to R15 (R21, R82). -/
theorem Instr.dst_not_extended {m : Mode} {i : Instr} (hm : m ≠ .mode64) (h : i.wellFormed m = true) :
    i.dst.extended = false := by
  have hrex : i.form.hasRex = false := by
    by_contra hr
    exact hm (Form.mode_of_wellFormed (by simpa using hr) h)
  simp only [Instr.wellFormed, Form.wellFormed, hrex, Reg.nameable, Bool.and_eq_true] at h
  obtain ⟨⟨-, hdst⟩, -⟩ := h
  simpa using hdst

theorem Disp.size_le (d : Disp) : d.size ≤ 4 := by cases d <;> simp [Disp.size]

theorem Disp16.size_le (d : Disp16) : d.size ≤ 2 := by cases d <;> simp [Disp16.size]

theorem AddrForm.size_le (a : AddrForm) : a.size ≤ 5 := by
  cases a with
  | base _ d => exact Nat.le_succ_of_le d.size_le
  | sib _ _ d => exact Nat.add_le_add_left d.size_le 1
  | base16 _ d => exact d.size_le.trans (by decide)
  | sibNoBase _ _ => exact le_rfl
  | ripRelative _ | absolute _ | absolute16 _ => simp [AddrForm.size]

theorem Source.size_le (src : Source) : src.size ≤ 5 := by
  cases src with
  | reg _ => exact Nat.zero_le 5
  | mem o => exact o.form.size_le

/-- R100: five bytes always stand, and each part that may stand besides is bounded. -/
theorem Instr.len_bounds (c : CodeContext) (i : Instr) : 5 ≤ i.len c ∧ i.len c ≤ 14 + i.lock.toNat := by
  have h66 := (i.form.needs66 c).toNat_le
  have h67 := (i.src.needs67 c).toNat_le
  have hov := i.src.override.isSome.toNat_le
  have hrex := i.form.hasRex.toNat_le
  have hsize := i.src.size_le
  unfold Instr.len Form.len
  omega

end Sys2Proof

namespace Sys2Proof.Machine

/-! ### One equation for every instruction -/

/-- The view of a register a row reads as its source operand (R84, R88). -/
def State.view (s : State) : (f : Form) → Reg → BitVec f.srcBits
  | .r32rm8 => (s.r8 · false)
  | .r32rm8Rex | .r64rm8 => (s.r8 · true)
  | .r32rm16 | .r32rm16Rex => s.r16
  | .r32rm32 | .r32rm32Rex => s.r32
  | .r64rm64 => s.r64

/-- The frame looks at the body only where the form has an encoding in the mode. -/
theorem runForm_congr {f : Form} {lock : Bool} {dst : Reg} {src : Source} {s : State}
    {body body' : Word64 → Access State} (h : f.wellFormed s.mode dst src = true → ∀ next, body next = body' next) :
    runForm f lock dst src s body = runForm f lock dst src s body' := by
  unfold runForm
  split
  · next hw => rw [h hw]
  · rfl

/-- Where a row with a REX byte has an encoding, a 32-bit write is the 64-bit write of the zero-extended value (R11,
D21). -/
theorem State.w32_of_rex {s : State} {f : Form} {dst : Reg} {src : Source} (hf : f.hasRex = true)
    (hw : f.wellFormed s.mode dst src = true) (d : Reg) (v : Word32) : s.w32 d v = s.w64 d (v.setWidth 64) := by
  rw [State.w32_eq, State.w64_eq, Form.mode_of_wellFormed hf hw, write32_mode64]

/-- Every instruction reads its source, accumulates on the low half of its destination and writes the result as a 32-bit
value. The rows with a 64-bit destination do so too: they exist in 64-bit mode, where a 32-bit write clears the upper
half. -/
theorem exec_eq (i : Instr) (s : State) :
    exec i s = runForm i.form i.lock i.dst i.src s fun next =>
      (s.source i.form.srcBits (s.view i.form) next i.src).bind fun v =>
        .ok ((s.w32 i.dst (crc32Acc i.form.srcBits (s.r32 i.dst) v)).setPc next) := by
  cases i with
  | crc32R64Rm8 lock dst src =>
    rw [exec, execCrc32R64Rm8]
    refine runForm_congr fun hw next => ?_
    exact congrArg _ (funext fun v => by rw [State.w32_of_rex (f := .r64rm8) rfl hw]; rfl)
  | crc32R64Rm64 lock dst src =>
    rw [exec, execCrc32R64Rm64]
    refine runForm_congr fun hw next => ?_
    exact congrArg _ (funext fun v => by rw [State.w32_of_rex (f := .r64rm64) rfl hw]; rfl)
  | _ => rfl

/-- An execution whose frame and source answer completes (R156). -/
theorem exec_of_source {i : Instr} {s : State} {v : BitVec i.form.srcBits} (hw : i.wellFormed s.mode = true)
    (hs : s.sse42 = true) (hl : i.lock = false)
    (hv : s.source i.form.srcBits (s.view i.form) (s.nextPc i.form false i.src) i.src = .ok v) :
    exec i s = .next (s.after i.form i.dst i.src
      (write32 s.mode (s.r64 i.dst) (crc32Acc i.form.srcBits (s.r32 i.dst) v))) := by
  rw [exec_eq, hl, runForm_of_ready hw hs, hv]
  rfl

/-- An execution that completes writes a 32-bit value to its destination, and pc. -/
theorem exec_next_w32 {i : Instr} {s t : State} (h : exec i s = .next t) :
    i.wellFormed s.mode = true ∧ i.lock = false ∧
      ∃ v : Word32, t = (s.w32 i.dst v).setPc (s.nextPc i.form i.lock i.src) := by
  rw [exec_eq, runForm_eq_next] at h
  obtain ⟨hw, -, hl, hb⟩ := h
  obtain ⟨v, -, ht⟩ := Access.bind_eq_ok.1 hb
  cases ht
  exact ⟨hw, hl, _, rfl⟩

/-- Two states under which an instruction reads the same source value, and whose results correspond by `g`, give outcomes
that correspond by `g`. -/
theorem exec_onNext {i : Instr} {s s' : State} (g : State → State) (hm : s'.mode = s.mode) (hs : s'.sse42 = s.sse42)
    (hsrc : s'.source i.form.srcBits (s'.view i.form) (s'.nextPc i.form i.lock i.src) i.src =
      s.source i.form.srcBits (s.view i.form) (s.nextPc i.form i.lock i.src) i.src)
    (hg : ∀ v, (s'.w32 i.dst (crc32Acc i.form.srcBits (s'.r32 i.dst) v)).setPc (s'.nextPc i.form i.lock i.src) =
      g ((s.w32 i.dst (crc32Acc i.form.srcBits (s.r32 i.dst) v)).setPc (s.nextPc i.form i.lock i.src))) :
    exec i s' = onNext g (exec i s) := by
  simp only [exec_eq, runForm, hm, hs, hsrc, hg]
  split
  · split
    · cases s.source i.form.srcBits (s.view i.form) (s.nextPc i.form i.lock i.src) i.src <;> rfl
    · rfl
  · rfl

/-- Settles O50: the two rows differ in the width of the destination alone, and `exec_eq` has one write for both. -/
theorem byteFormsAgreeAtBothDestinationWidths : Obligations.ByteFormsAgreeAtBothDestinationWidths := by
  intro lock dst src s
  rw [exec_eq, exec_eq]
  rfl

/-! ### The instruction pointer -/

theorem pcLimit_le (m : Mode) : pcLimit m ≤ 2 ^ 64 := by cases m <;> decide

/-- An instruction that is fetched leaves pc an address of the mode, without a wrap (R26, D13). -/
theorem nextPc_of_fetch {s : State} {i : Instr} (h : s.fetch = .ok i) :
    (s.nextPc i.form i.lock i.src).toNat = s.pc.toNat + i.len s.context ∧
      s.pc.toNat + i.len s.context < pcLimit s.mode := by
  obtain ⟨-, -, -, -, -, hlim⟩ := fetch_eq_ok.1 h
  have hmax := pcLimit_le s.mode
  have hlen : i.form.len s.context i.lock i.src = i.len s.context := rfl
  refine ⟨?_, hlim⟩
  rw [State.nextPc, hlen, BitVec.toNat_add, BitVec.toNat_ofNat]
  omega

/-- Settles O54: `step_next` says what a step writes, `nextPc_of_fetch` where pc goes, and a completed instruction has no
LOCK byte, so 14 bounds its length. -/
theorem stepChangesOnlyTheDestinationAndPc : Obligations.StepChangesOnlyTheDestinationAndPc := by
  intro s t h
  obtain ⟨i, hf, hx, w, rfl⟩ := step_next h
  obtain ⟨-, -, hl, -⟩ := exec_next hx
  have hlen := i.len_bounds s.context
  rw [hl] at hlen
  exact ⟨i, hf, fun r hr => s.regs.get_set_of_ne w hr, rfl, (nextPc_of_fetch hf).1, hlen⟩

/-! ### The invariant -/

/-- The bits that are no state, register by register: outside 64-bit mode every upper half is clear, and R8 to R15 are
zero (R20). -/
theorem State.unusedBitsClear_iff (s : State) :
    s.unusedBitsClear = true ↔
      s.mode = .mode64 ∨ ∀ r : Reg, (s.r64 r).extractLsb' 32 32 = 0 ∧ (r.extended = true → s.r64 r = 0) := by
  simp only [State.unusedBitsClear, Bool.or_eq_true, Bool.and_eq_true, List.all_eq_true, beq_iff_eq]
  refine or_congr_right ⟨fun ⟨hlow, hext⟩ r => ?_, fun h => ⟨fun r _ => (h r).1, fun r hr => (h r).2 ?_⟩⟩
  · by_cases hr : r.extended = true
    · have h0 := hext r (by revert hr; cases r <;> decide)
      exact ⟨by rw [h0]; decide, fun _ => h0⟩
    · exact ⟨hlow r (by revert hr; cases r <;> decide), fun h => absurd h hr⟩
  · revert hr; cases r <;> decide

theorem State.inv_iff (s : State) :
    s.inv = true ↔ Memory.wf s.mem = true ∧ s.coherent = true ∧ s.faultRecord = none ∧
      s.pc.toNat < pcLimit s.mode ∧ s.unusedBitsClear = true := by
  simp only [State.inv, Bool.and_eq_true, beq_iff_eq, decide_eq_true_eq, and_assoc]

/-- Writing 32 bits to one of the first eight registers keeps the bits clear that are no state. -/
theorem State.unusedBitsClear_w32 {s : State} {d : Reg} (v : Word32) (hd : s.mode ≠ .mode64 → d.extended = false)
    (h : s.unusedBitsClear = true) : (s.w32 d v).unusedBitsClear = true := by
  rw [State.unusedBitsClear_iff] at h ⊢
  by_cases hm : s.mode = .mode64
  · exact .inl hm
  have hold := h.resolve_left hm
  refine .inr fun r => ?_
  by_cases hr : r = d
  · subst hr
    rw [State.r64, State.w32_get_self, write32_high, if_neg hm]
    exact ⟨(hold r).1, fun he => absurd he (by simp [hd hm])⟩
  · rw [State.r64, State.w32_eq, State.setReg_regs, s.regs.get_set_of_ne _ hr]
    exact hold r

/-- Settles O52: a step writes a 32-bit value to its destination, which keeps the unused bits clear, and moves pc to an
address below the mode's limit; nothing else the invariant speaks of changes. -/
theorem stepKeepsTheInvariant : Obligations.StepKeepsTheInvariant := by
  intro s t hinv h
  obtain ⟨i, hf, hx, -⟩ := step_next h
  obtain ⟨hw, -, v, rfl⟩ := exec_next_w32 hx
  obtain ⟨hpc, hlim⟩ := nextPc_of_fetch hf
  rw [State.inv_iff] at hinv ⊢
  obtain ⟨hmem, hcoh, hrec, -, hbits⟩ := hinv
  have hbits' := State.unusedBitsClear_w32 v (fun hm => Instr.dst_not_extended hm hw) hbits
  exact ⟨hmem, hcoh, hrec, hpc.trans_lt hlim, hbits'⟩

/-- Settles O53: the reset state is closed data, and the invariant evaluates on it. -/
theorem resetIsALaunchState : Obligations.ResetIsALaunchState := by
  unfold Obligations.ResetIsALaunchState
  decide

/-! ### Registers -/

/-- Settles O21: only numbers 4 to 7 change their meaning with a REX byte. -/
theorem byteRegisterNames : Obligations.ByteRegisterNames := by
  refine fun s => ⟨fun i => rfl, fun i hi => ?_, rfl, rfl, rfl, rfl⟩
  cases i with
  | rsp | rbp | rsi | rdi => exact absurd hi (by decide)
  | _ => rfl

/-! ### Linear addresses (R59) -/

/-- `SegBase` in 64-bit mode is the FS or GS base, or 0. -/
theorem State.segBase64_toNat (s : State) (g : Seg) :
    (s.segBase64 g).toNat = if g = .fs then s.fsBase.toNat else if g = .gs then s.gsBase.toNat else 0 := by
  cases g <;> rfl

theorem cutTo_a32_toNat (v : Word64) : (cutTo .a32 v).toNat = v.toNat % 2 ^ 32 := by
  simp only [cutTo, BitVec.toNat_setWidth, BitVec.extractLsb'_toNat, Nat.shiftRight_zero]
  omega

/-- An offset that passes the bound of real-address mode stays below `2^64` on top of any selector. -/
theorem State.linearReal_toNat (s : State) (g : Seg) {ea : Word64} (h : ea.toNat ≤ 0xFFFF) :
    (s.linearReal g ea).toNat = (s.segs.get g).selector.toNat * 16 + ea.toNat := by
  have hsel := (s.segs.get g).selector.isLt
  simp only [State.linearReal, BitVec.toNat_add, BitVec.toNat_shiftLeft, BitVec.toNat_setWidth, Nat.shiftLeft_eq]
  omega

section Linear
variable {s : State} (g : Seg) (ea : Word64) (n : Nat)

/-- 64-bit mode: the segment base is added, and every byte is checked for canonical form (R60). -/
theorem State.linear_of_mode64 (hm : s.mode = .mode64) :
    s.linear g ea n =
      if 2 ^ 64 < (s.segBase64 g + ea).toNat + n then .refuse .operandWraps
      else if (List.range n).all fun k => s.canonical (s.byteAddr (s.segBase64 g + ea) k) then .ok (s.segBase64 g + ea)
      else .fault (segmentFault g) := by
  simp only [State.linear, hm]

/-- Real-address and virtual-8086 mode: 16 times the selector is added, and offsets end at FFFFH (R61). -/
theorem State.linear_of_selector (hm : s.mode = .real ∨ s.mode = .v86) :
    s.linear g ea n = if 0xFFFF < ea.toNat + n - 1 then .fault (segmentFault g) else .ok (s.linearReal g ea) := by
  rcases hm with hm | hm <;> simp only [State.linear, hm]

/-- Compatibility and protected mode: the base of the segment is added modulo `2^32`, inside the segment (R31). -/
theorem State.linear_of_segBase (hm : s.mode = .compat ∨ s.mode = .prot) :
    s.linear g ea n =
      if s.inSegment g ea n then .ok (cutTo .a32 ((s.segs.get g).base.setWidth 64 + ea)) else .fault (segmentFault g) := by
  rcases hm with hm | hm <;> simp only [State.linear, hm]

end Linear

/-- Settles O25: the modes fall into three groups, by what is added to the offset. -/
theorem linearAddressOfAnOperand : Obligations.LinearAddressOfAnOperand := by
  intro s g ea la n hn h
  have selector (hm : s.mode = .real ∨ s.mode = .v86) : la.toNat = (s.segs.get g).selector.toNat * 16 + ea.toNat := by
    rw [State.linear_of_selector g ea n hm] at h
    split at h <;> cases h
    exact s.linearReal_toNat g (by omega)
  have segBase (hm : s.mode = .compat ∨ s.mode = .prot) : la.toNat = ((s.segs.get g).base.toNat + ea.toNat) % 2 ^ 32 := by
    rw [State.linear_of_segBase g ea n hm] at h
    split at h <;> cases h
    have hb := (s.segs.get g).base.isLt
    rw [cutTo_a32_toNat, BitVec.toNat_add, BitVec.toNat_setWidth]
    omega
  cases hm : s.mode with
  | mode64 =>
    rw [State.linear_of_mode64 g ea n hm] at h
    split at h
    · cases h
    · split at h <;> cases h
      rw [BitVec.toNat_add, State.segBase64_toNat]
  | real => exact selector (.inl hm)
  | v86 => exact selector (.inr hm)
  | compat => exact segBase (.inl hm)
  | prot => exact segBase (.inr hm)

/-! ### The exceptions of a read (R179) -/

/-- The segment, bound or canonical check raises `#SS(0)` or `#GP(0)` (R60, R61). -/
theorem State.linear_fault {s : State} {g : Seg} {ea : Word64} {n : Nat} {f : Fault} (h : s.linear g ea n = .fault f) :
    f = segmentFault g := by
  have selector (hm : s.mode = .real ∨ s.mode = .v86) : f = segmentFault g := by
    rw [State.linear_of_selector g ea n hm] at h
    split at h <;> cases h
    rfl
  have segBase (hm : s.mode = .compat ∨ s.mode = .prot) : f = segmentFault g := by
    rw [State.linear_of_segBase g ea n hm] at h
    split at h <;> cases h
    rfl
  cases hm : s.mode with
  | mode64 =>
    rw [State.linear_of_mode64 g ea n hm] at h
    split at h
    · cases h
    · split at h <;> cases h
      rfl
  | real => exact selector (.inl hm)
  | v86 => exact selector (.inr hm)
  | compat => exact segBase (.inl hm)
  | prot => exact segBase (.inr hm)

theorem segmentFault_ne_ac0 (g : Seg) : segmentFault g ≠ .ac0 := by
  unfold segmentFault
  split <;> decide

/-- Translation raises page faults alone, at the address asked for (R62). -/
theorem State.translate_fault {s : State} {la : Word64} {f : Fault} (h : s.translate la = .fault f) :
    ∃ code, f = .pf code la := by
  unfold State.translate at h
  split at h
  · cases h
  · split at h <;> cases h
    exact ⟨_, rfl⟩
  · split at h
    · cases h; exact ⟨_, rfl⟩
    · split at h <;> cases h
      exact ⟨_, rfl⟩

theorem State.physical_fault {s : State} {la : Word64} {f : Fault} (h : s.physical la = .fault f) :
    ∃ code, f = .pf code la := by
  unfold State.physical at h
  split at h
  · cases h
  all_goals exact State.translate_fault h

/-- Translating some bytes succeeds exactly when each translates. -/
theorem exists_physicals_eq_ok {s : State} {las : List Word64} :
    (∃ ps, s.physicals las = .ok ps) ↔ ∀ la ∈ las, ∃ p, s.physical la = .ok p := by
  induction las with
  | nil => simp [State.physicals]
  | cons la las ih =>
    rw [List.forall_mem_cons, ← ih]
    simp only [State.physicals, Access.bind_eq_ok, Access.ok.injEq]
    constructor
    · rintro ⟨-, p, hp, ps, hps, -⟩
      exact ⟨⟨p, hp⟩, ps, hps⟩
    · rintro ⟨⟨p, hp⟩, ps, hps⟩
      exact ⟨p :: ps, p, hp, ps, hps, rfl⟩

theorem State.misaligned_iff {s : State} {la : Word64} {n : Nat} :
    s.misaligned la n = true ↔
      s.cr0AM = true ∧ s.rflags.getLsbD 18 = true ∧ s.cpl = 3 ∧ s.mode ≠ .real ∧ 1 < n ∧ la.toNat % n ≠ 0 := by
  simp only [State.misaligned, State.alignCheck, State.flag, FlagBit.pos, Bool.and_eq_true, beq_iff_eq, bne_iff_ne,
    decide_eq_true_eq, and_assoc]

/-- A memory source with SSE4_2 = 1 and no LOCK byte raises what its read raises. -/
theorem exec_eq_fault_of_mem {i : Instr} {s : State} {o : MemOperand} {f : Fault} (hw : i.wellFormed s.mode = true)
    (ho : i.src = .mem o) (hs : s.sse42 = true) (hl : i.lock = false) :
    exec i s = .fault f ↔ s.memRead (operandSegment o) (operandEa i o s) i.form.srcBytes = .fault f := by
  obtain ⟨w, e⟩ := exec_of_mem i s ho
  rw [e, runForm_eq_fault, operandEa]
  simp [show i.form.wellFormed s.mode i.dst i.src = true from hw, hs, hl, Access.bind_eq_fault]

/-- Settles O33: of the three checks of a read (`memRead_eq_fault`) only the last can raise `#AC(0)`. -/
theorem alignmentCheckExactly : Obligations.AlignmentCheckExactly := by
  intro i s o hw ho hs hl
  rw [exec_eq_fault_of_mem hw ho hs hl, memRead_eq_fault]
  have hlin : s.linear (operandSegment o) (operandEa i o s) i.form.srcBytes ≠ .fault .ac0 :=
    fun h => segmentFault_ne_ac0 _ (State.linear_fault h).symm
  have hphys (las : List Word64) : s.physicals las ≠ .fault .ac0 := by
    rw [ne_eq, physicals_eq_fault]
    rintro ⟨-, x, -, -, -, hx⟩
    obtain ⟨code, hpf⟩ := State.physical_fault hx
    cases hpf
  simp only [hlin, hphys, false_or, and_true, exists_and_right, exists_physicals_eq_ok, State.misaligned_iff,
    List.forall_mem_map, List.mem_range]

/-! ### RFLAGS (R27, R30) -/

/-- A read sees of a state what its three checks, the places of its bytes and the data memory show. -/
theorem State.memRead_congr {s s' : State} {g : Seg} {ea : Word64} {n : Nat} (hl : s'.linear g ea n = s.linear g ea n)
    (hb : s'.byteAddr = s.byteAddr) (hp : s'.physical = s.physical) (hm : s'.misaligned = s.misaligned)
    (hmem : s'.mem = s.mem) : s'.memRead g ea n = s.memRead g ea n := by
  have hps (las : List Word64) : s'.physicals las = s.physicals las := by
    induction las with
    | nil => rfl
    | cons la las ih => rw [State.physicals, State.physicals, ih, hp]
  simp only [State.memRead, State.readLinear, hl, hb, hps, hm, hmem]

/-- Of RFLAGS a read sees AC alone, in the alignment check. -/
theorem State.memRead_rflags {s : State} {f : Word64} (h : f.getLsbD 18 = s.rflags.getLsbD 18) (g : Seg) (ea : Word64)
    (n : Nat) : State.memRead { s with rflags := f } g ea n = s.memRead g ea n := by
  refine State.memRead_congr rfl rfl rfl ?_ rfl
  funext la n
  simp only [State.misaligned, State.alignCheck, State.flag, FlagBit.pos, h]

/-- Of RFLAGS an execution sees AC alone. -/
theorem exec_rflags (i : Instr) {s : State} {f : Word64} (h : f.getLsbD 18 = s.rflags.getLsbD 18) :
    exec i { s with rflags := f } = onNext (fun t => { t with rflags := f }) (exec i s) := by
  refine exec_onNext (s' := { s with rflags := f }) (fun t => { t with rflags := f }) rfl rfl ?_ fun v => rfl
  cases i.src with
  | reg r => cases i.form <;> rfl
  | mem o => rw [State.source_mem, State.memRead_rflags h]; rfl

/-- `crc32 eax, word [rsi]`. -/
def eaxWordRsi : Instr := .crc32R32Rm16 false .rax (.mem { asize := .a64, override := none, form := .base .rsi .absent })

/-- A state at level 3 with CR0.AM = 1 and RSI at an odd address that holds two bytes. -/
def oddWordAtRsi : State :=
  { State.reset with regs := { Gprs.zero with rsi := 1 }, cpl := 3, cr0AM := true, mem := [(1, 0), (2, 0)] }

/-- With AC clear the misaligned read completes; with AC set it raises `#AC(0)`. -/
theorem alignmentCheck_needs_ac : (∃ t, exec eaxWordRsi oddWordAtRsi = .next t) ∧
    exec eaxWordRsi { oddWordAtRsi with rflags := oddWordAtRsi.rflags ||| 0x40000 } = .fault .ac0 :=
  ⟨⟨_, rfl⟩, rfl⟩

/-- Settles O46: no completed instruction writes RFLAGS, `exec_rflags` says what reads them, and `oddWordAtRsi` shows that AC
matters. -/
theorem rflagsIsNotWrittenAndOnlyAcIsRead : Obligations.RflagsIsNotWrittenAndOnlyAcIsRead := by
  refine ⟨fun i s t h => ?_, fun i s f h => exec_rflags i h, ?_, fun s => ⟨⟨rfl, rfl, rfl, rfl, rfl, rfl, rfl⟩, ?_⟩⟩
  · obtain ⟨-, -, v, rfl⟩ := exec_next_w32 h
    rfl
  · obtain ⟨⟨t, ht⟩, hac⟩ := alignmentCheck_needs_ac
    exact ⟨_, _, t, ht, hac⟩
  · simp only [State.alignCheck, Bool.and_eq_true]

/-! ### Overlapping operands (R159) -/

/-- A dividend below `2^32` is its own remainder by the polynomial. -/
theorem mod2_polynomial_of_lt {a : Nat} (h : a < 2 ^ 32) : mod2 a polynomial = a :=
  mod2_eq_mod2Down (k := 0) (by decide) (by rwa [polynomial_log2])

/-- Bit `i` of a reflection is bit `n - 1 - i` (R130). -/
theorem bitReflect_getLsbD {n : Nat} (v : BitVec n) (i : Nat) :
    (bitReflect v).getLsbD i = (decide (i < n) && v.getLsbD (n - 1 - i)) := by
  rw [bitReflect, BitVec.getLsbD_reverse, BitVec.getMsbD_eq_getLsbD]

/-- A left shift seen in the mirror is a right shift. -/
theorem bitReflect_shiftLeft_bitReflect {w : Nat} (v : BitVec w) (n : Nat) :
    bitReflect (bitReflect v <<< n) = v >>> n := by
  refine BitVec.eq_of_getLsbD_eq fun i hi => ?_
  simp only [bitReflect_getLsbD, BitVec.getLsbD_shiftLeft, BitVec.getLsbD_ushiftRight, hi, decide_true, Bool.true_and]
  by_cases h : n + i < w
  · simp [show w - 1 - i < w by omega, show ¬w - 1 - i < n by omega, show w - 1 - i - n < w by omega,
      show w - 1 - (w - 1 - i - n) = n + i by omega]
  · simp [show w - 1 - i < n by omega, BitVec.getLsbD_of_ge v (n + i) (by omega)]

/-- Accumulating the low `n` bits of the initial value shifts it right: the datum cancels the top of the shifted initial
value, and what is left is below the polynomial (R138, R139). -/
theorem crc32Acc_low_bits {n : Nat} (hn : n ≤ 32) (d : Word32) : crc32Acc n d (d.extractLsb' 0 n) = d >>> n := by
  have hdividend : (bitReflect (d.extractLsb' 0 n)).setWidth (n + 32) <<< 32 ^^^ (bitReflect d).setWidth (n + 32) <<< n =
      (bitReflect d <<< n).setWidth (n + 32) := by
    refine BitVec.eq_of_getLsbD_eq fun i hi => ?_
    simp only [BitVec.getLsbD_xor, BitVec.getLsbD_shiftLeft, BitVec.getLsbD_setWidth, bitReflect_getLsbD,
      BitVec.getLsbD_extractLsb', hi, decide_true, Bool.true_and, Nat.zero_add]
    by_cases h : i < 32
    · simp [h, show i - n < n + 32 by omega]
    · simp [h, show i - 32 < n by omega, show i - 32 < n + 32 by omega, show i - n < n + 32 by omega,
        show ¬i < n by omega, show i - n < 32 by omega, show n - 1 - (i - 32) = 31 - (i - n) by omega,
        show 31 - (i - n) < n by omega]
  have hlt : (bitReflect d <<< n).toNat < 2 ^ (n + 32) :=
    (BitVec.isLt _).trans_le (Nat.pow_le_pow_right (by decide) (Nat.le_add_left 32 n))
  simp only [crc32Acc, hdividend, BitVec.toNat_setWidth, Nat.mod_eq_of_lt hlt, mod2_polynomial_of_lt (BitVec.isLt _),
    BitVec.ofNat_toNat, BitVec.setWidth_eq, bitReflect_shiftLeft_bitReflect]

/-- Accumulating a register on itself leaves 0 (R138). -/
theorem crc32Acc_self (d : Word32) : crc32Acc 32 d d = 0 := by
  have h := crc32Acc_low_bits le_rfl d
  rwa [BitVec.extractLsb'_eq_self, BitVec.ushiftRight_eq_zero le_rfl] at h

/-- The low byte of a register is the low byte of its 32-bit view (R22). -/
theorem State.low8_eq (s : State) (r : Reg) : s.low8 r = (s.r32 r).extractLsb' 0 8 := by
  rw [State.low8, State.r32, BitVec.extractLsb'_extractLsb'_of_le (by decide)]

/-- Settles O48: `exec_of_source` reads every operand in the state before. -/
theorem overlappingOperandsReadOldValues : Obligations.OverlappingOperandsReadOldValues := by
  refine ⟨fun s r hs hw => ?_, fun s hs => ?_, fun s hs => ?_, fun s v hm hs hv => ?_⟩
  · have hzero : crc32Acc 32 (s.r32 r) (s.r32 r) = 0 := crc32Acc_self _
    exact hzero ▸ exec_of_source (i := .crc32R32Rm32 false r (.reg r)) hw hs rfl rfl
  · have hshift : crc32Acc 8 (s.r32 .rax) (s.low8 .rax) = s.r32 .rax >>> 8 := by
      rw [State.low8_eq]
      exact crc32Acc_low_bits (by decide) _
    exact hshift ▸ exec_of_source (i := .crc32R32Rm8 false .rax (.reg .rax)) rfl hs rfl rfl
  · exact exec_of_source (i := .crc32R32Rm8 false .rax (.reg .rsp)) rfl hs rfl rfl
  · let o : MemOperand := { asize := .a64, override := none, form := .base .rax .absent }
    let src : Source := .mem o
    have hsrc : s.source 64 s.r64 (s.nextPc .r64rm64 false src) src = .ok (BitVec.ofNat 64 v) := by
      have hea : s.ea (s.nextPc .r64rm64 false src) o = s.r64 .rax := BitVec.add_zero (s.r64 .rax)
      rw [State.source_mem, hea]
      exact Access.bind_eq_ok.2 ⟨v, hv, rfl⟩
    have h := exec_of_source (i := .crc32R64Rm64 false .rax src) (by rw [hm]; rfl) hs rfl hsrc
    rw [hm, write32_mode64] at h
    exact h

/-! ### Fetching -/

theorem State.text_of_le {s : State} (h : s.codeBase.toNat ≤ s.pc.toNat) :
    s.text = s.code.drop (s.pc.toNat - s.codeBase.toNat) :=
  if_neg (Nat.not_lt.2 h)

/-- The text from pc on is empty exactly where pc names none of its bytes. -/
theorem State.text_eq_nil_iff (s : State) :
    s.text = [] ↔ s.pc.toNat < s.codeBase.toNat ∨ s.codeBase.toNat + s.code.length ≤ s.pc.toNat := by
  unfold State.text
  split
  · next h => simp [h]
  · rw [List.drop_eq_nil_iff]; omega

theorem State.atEnd_iff (s : State) : s.atEnd = true ↔ s.pc.toNat = s.codeBase.toNat + s.code.length := beq_iff_eq

theorem step_of_fetch {s : State} {i : Instr} (h : s.fetch = .ok i) : step s = exec i s := by rw [step, h]

theorem step_of_fetch_refuse {s : State} {r : Refusal} (h : s.fetch = .refuse r) : step s = .refused r := by rw [step, h]

/-- Where pc names a byte of the text, the decoder sees the text from that byte on. -/
theorem State.inText {s : State} (hle : s.codeBase.toNat ≤ s.pc.toNat)
    (hlt : s.pc.toNat < s.codeBase.toNat + s.code.length) :
    s.atEnd = false ∧ s.text ≠ [] ∧ s.text = s.code.drop (s.pc.toNat - s.codeBase.toNat) := by
  refine ⟨?_, ?_, State.text_of_le hle⟩
  · rw [Bool.eq_false_iff, ne_eq, State.atEnd_iff]; omega
  · rw [ne_eq, State.text_eq_nil_iff]; omega

/-- Settles O51: the hypotheses are those of `fetch_eq_ok`. -/
theorem stepRunsTheDecodedInstruction : Obligations.StepRunsTheDecodedInstruction := by
  intro s i rest hrec hcoh hle hlt hd hlim
  obtain ⟨hend, hne, htext⟩ := State.inText hle hlt
  exact step_of_fetch (fetch_eq_ok.2 ⟨hrec, hcoh, hend, hne, ⟨rest, htext ▸ hd⟩, hlim⟩)

section Refusals
variable {s : State} (hrec : s.faultRecord = none)
include hrec

theorem fetch_of_incoherent (hcoh : s.coherent = false) : s.fetch = .refuse .incoherentMode := by
  simp [State.fetch, hrec, hcoh]

variable (hcoh : s.coherent = true)
include hcoh

theorem fetch_of_atEnd (hend : s.atEnd = true) : s.fetch = .refuse .runOver := by
  simp [State.fetch, hrec, hcoh, hend]

variable (hend : s.atEnd = false)
include hend

theorem fetch_of_text_nil (ht : s.text = []) : s.fetch = .refuse .pcOutsideText := by
  simp [State.fetch, hrec, hcoh, hend, ht]

variable (ht : s.text ≠ [])
include ht

theorem fetch_of_decode_error {e : DecodeRefusal} (hd : decode s.context s.text = .error e) :
    s.fetch = .refuse (.undecodable e) := by
  simp [State.fetch, hrec, hcoh, hend, ht, hd]

theorem fetch_of_limit {i : Instr} {rest : List Byte} (hd : decode s.context s.text = .ok (i, rest))
    (hlim : pcLimit s.mode ≤ s.pc.toNat + i.len s.context) : s.fetch = .refuse .pcWraps := by
  simp [State.fetch, hrec, hcoh, hend, ht, hd, Nat.not_lt.2 hlim]

end Refusals

theorem State.coherent_eq_false {s : State} (h : s.mode = .v86 ∧ s.cpl ≠ 3 ∨ s.mode = .real ∧ s.cpl ≠ 0) :
    s.coherent = false := by
  unfold State.coherent
  rcases h with ⟨hm, hc⟩ | ⟨hm, hc⟩ <;> rw [hm] <;> exact beq_false_of_ne hc

/-- Settles O57: the checks of `fetch` in their order, each by its own rule. -/
theorem stepRefusals : Obligations.StepRefusals := by
  refine fun s hrec => ⟨fun h => ?incoherent, fun hcoh => ⟨fun h => ?atEnd, fun h => ?outside, fun hle hlt => ?inside⟩⟩
  case incoherent => exact step_of_fetch_refuse (fetch_of_incoherent hrec (State.coherent_eq_false h))
  case atEnd => exact step_of_fetch_refuse (fetch_of_atEnd hrec hcoh (s.atEnd_iff.2 h))
  case outside =>
    have hend : s.atEnd = false := by rw [Bool.eq_false_iff, ne_eq, State.atEnd_iff]; omega
    exact step_of_fetch_refuse (fetch_of_text_nil hrec hcoh hend (s.text_eq_nil_iff.2 (by omega)))
  case inside =>
    obtain ⟨hend, hne, htext⟩ := State.inText hle hlt
    rw [← htext]
    exact ⟨fun e hd => step_of_fetch_refuse (fetch_of_decode_error hrec hcoh hend hne hd),
      fun i rest hd hlim => step_of_fetch_refuse (fetch_of_limit hrec hcoh hend hne hd hlim)⟩

end Sys2Proof.Machine
end

section
/-! Proofs for 20_memory.md. First translation, the bytes of an operand and the segment, bound or canonical check, each
by the rules of its definition; then what a read does with its checks passed, refused and failed; last the two views of
memory. -/

namespace Sys2Proof.Machine

/-! ### Translation (R62, R178) -/

/-- R178: whatever the cause, bits 1 and 4 are clear, bit 2 tells level 3, and nothing stands above bit 3. -/
theorem pageFaultCode_bits (cause : PageFaultCause) (cpl : BitVec 2) :
    (pageFaultCode cause cpl).getLsbD 1 = false ∧ (pageFaultCode cause cpl).getLsbD 4 = false ∧
      (pageFaultCode cause cpl).getLsbD 2 = (cpl == 3) ∧ (pageFaultCode cause cpl).toNat < 16 := by
  obtain ⟨protection, reserved⟩ := cause
  unfold pageFaultCode
  generalize (cpl == 3) = user
  revert protection reserved user
  decide

theorem pageFaultCode_notPresent (cpl : BitVec 2) : pageFaultCode notPresent cpl = if cpl = 3 then 4 else 0 := by
  revert cpl
  decide

theorem PageMap.holds_iff {e : PageMap} {la : Nat} {cpl : BitVec 2} :
    PageMap.holds e la cpl = true ↔ e.cpl = cpl ∧ e.first ≤ la ∧ la ≤ e.last := by
  simp only [PageMap.holds, Bool.and_eq_true, beq_iff_eq, decide_eq_true_eq, and_assoc]

section Translate
variable {s : State} {la : Word64}

theorem State.translate_of_identity (hp : s.paging = .identity) : s.translate la = .ok la.toNat := by
  simp only [State.translate, hp]

theorem State.translate_of_admitted (hp : s.paging = .admitted) :
    s.translate la =
      if (memGet s.mem la.toNat).isSome then .ok la.toNat else .fault (.pf (pageFaultCode notPresent s.cpl) la) := by
  simp only [State.translate, hp]

variable {es : List PageMap} (hp : s.paging = .table es)
include hp

theorem State.translate_of_noEntry (hf : es.find? (PageMap.holds · la.toNat s.cpl) = none) :
    s.translate la = .fault (.pf (pageFaultCode notPresent s.cpl) la) := by
  simp only [State.translate, hp, hf]

variable {e : PageMap} (hf : es.find? (PageMap.holds · la.toNat s.cpl) = some e)
include hf

theorem State.translate_of_phys {base : Nat} (ht : e.target = .phys base) :
    s.translate la = .ok (base + (la.toNat - e.first)) := by
  simp only [State.translate, hp, hf, ht]

theorem State.translate_of_pageFault {cause : PageFaultCause} (ht : e.target = .pageFault cause) :
    s.translate la = .fault (.pf (pageFaultCode cause s.cpl) la) := by
  simp only [State.translate, hp, hf, ht]

end Translate

/-- All that translation can do: a physical address, or the page fault of a cause at the address asked for. -/
theorem State.translate_cases (s : State) (la : Word64) :
    (∃ p, s.translate la = .ok p) ∨ ∃ cause, s.translate la = .fault (.pf (pageFaultCode cause s.cpl) la) := by
  cases hp : s.paging with
  | identity => exact .inl ⟨_, State.translate_of_identity hp⟩
  | admitted =>
    rw [State.translate_of_admitted hp]
    split
    · exact .inl ⟨_, rfl⟩
    · exact .inr ⟨_, rfl⟩
  | table es =>
    cases hf : es.find? (PageMap.holds · la.toNat s.cpl) with
    | none => exact .inr ⟨_, State.translate_of_noEntry hp hf⟩
    | some e =>
      cases ht : e.target with
      | phys base => exact .inl ⟨_, State.translate_of_phys hp hf ht⟩
      | pageFault cause => exact .inr ⟨_, State.translate_of_pageFault hp hf ht⟩

theorem State.physical_of_real {s : State} (hm : s.mode = .real) (la : Word64) : s.physical la = .ok (s.a20 la) := by
  simp only [State.physical, hm]

theorem State.physical_of_ne_real {s : State} (hm : s.mode ≠ .real) (la : Word64) : s.physical la = s.translate la := by
  cases h : s.mode with
  | real => exact absurd h hm
  | _ => simp only [State.physical, h]

theorem State.physical_ne_refuse (s : State) (la : Word64) (r : Refusal) : s.physical la ≠ .refuse r := by
  by_cases hm : s.mode = .real
  · rw [State.physical_of_real hm]
    nofun
  · rw [State.physical_of_ne_real hm]
    rcases s.translate_cases la with ⟨p, h⟩ | ⟨cause, h⟩ <;> rw [h] <;> nofun

/-- Clearing one bit of a word subtracts its weight, if it is set. -/
theorem toNat_and_not_twoPow {w : Nat} (x : BitVec w) {i : Nat} (hi : i < w) :
    (x &&& ~~~BitVec.twoPow w i).toNat = x.toNat - if x.getLsbD i then 2 ^ i else 0 := by
  have hdisjoint : (x &&& ~~~BitVec.twoPow w i) &&& (x &&& BitVec.twoPow w i) = 0#w := by
    ext j hj
    simp +contextual
  have hsplit : (x &&& ~~~BitVec.twoPow w i) + (x &&& BitVec.twoPow w i) = x := by
    rw [BitVec.add_eq_or_of_and_eq_zero _ _ hdisjoint, ← BitVec.and_or_distrib_left]
    simp
  have hsum := BitVec.toNat_add_of_and_eq_zero hdisjoint
  rw [hsplit, BitVec.and_twoPow, apply_ite BitVec.toNat, BitVec.toNat_twoPow_of_lt hi, BitVec.toNat_zero] at hsum
  exact (Nat.sub_eq_of_eq_add hsum).symm

/-- D29: bit 20 of the address is cleared where the A20 flag says so. -/
theorem State.a20_eq (s : State) (la : Word64) :
    s.a20 la = la.toNat - if s.a20Masked = true ∧ la.getLsbD 20 = true then 2 ^ 20 else 0 := by
  unfold State.a20
  cases s.a20Masked with
  | false => simp
  | true =>
    have h := toNat_and_not_twoPow la (i := 20) (by decide)
    simpa using h

/-- Settles O59: real-address mode masks bit 20 and translates nothing; elsewhere each form of Translate has its rule,
and the entry of a table that decides is the one its search finds. -/
theorem physicalAddressOfAByte : Obligations.PhysicalAddressOfAByte := by
  intro s la
  refine ⟨fun hm => ?real, fun hm => State.physical_of_ne_real hm la, State.translate_of_identity,
    fun b hp hb => ?admitted, fun es hp =>
      ⟨fun before after e hes hbefore hcpl hfirst hlast => ?entry, fun hnone => ?noEntry⟩⟩
  case real => rw [State.physical_of_real hm, State.a20_eq]
  case admitted => rw [State.translate_of_admitted hp, hb, Option.isSome_some, if_pos rfl]
  case entry =>
    have hf : es.find? (PageMap.holds · la.toNat s.cpl) = some e :=
      List.find?_eq_some_iff_append.2 ⟨PageMap.holds_iff.2 ⟨hcpl, hfirst, hlast⟩, before, after, hes, fun x hx => by
        simpa [← PageMap.holds_iff] using hbefore x hx⟩
    exact ⟨fun base => State.translate_of_phys hp hf, fun cause => State.translate_of_pageFault hp hf⟩
  case noEntry =>
    have hf : es.find? (PageMap.holds · la.toNat s.cpl) = none :=
      List.find?_eq_none.2 fun x hx => mt PageMap.holds_iff.1 (hnone x hx)
    rw [State.translate_of_noEntry hp hf, pageFaultCode_notPresent]

/-- Settles O32: a fault of translation has the code of a cause, and the default gives the cause not-present. -/
theorem pageFaultCodes : Obligations.PageFaultCodes := by
  refine ⟨fun s la f h => ?_, fun s la hp hm => ?_⟩
  · rcases s.translate_cases la with ⟨p, hok⟩ | ⟨cause, hpf⟩
    · rw [hok] at h; cases h
    · rw [hpf] at h; cases h
      exact ⟨_, rfl, pageFaultCode_bits cause s.cpl⟩
  · rw [State.translate_of_admitted hp, hm, pageFaultCode_notPresent]
    rfl

/-! ### The bytes of an operand (R52, R53) -/

section Bytes
variable {s : State} {n : Nat} {a : Nat → Word64}

/-- The bytes of an operand all translate exactly when byte `k` does for every `k`, and `p k` is its place. -/
theorem physicals_range_eq_ok {ps : List Nat} :
    s.physicals ((List.range n).map a) = .ok ps ↔
      ∃ p : Nat → Nat, (∀ k < n, s.physical (a k) = .ok (p k)) ∧ ps = (List.range n).map p := by
  have hplaces {p : Nat → Nat} (hp : ∀ k < n, s.physical (a k) = .ok (p k)) :
      s.physicals ((List.range n).map a) = .ok ((List.range n).map p) := by
    rw [physicals_eq_ok, List.forall₂_map_left_iff, List.forall₂_map_right_iff, List.forall₂_same]
    exact fun k hk => hp k (List.mem_range.1 hk)
  constructor
  · intro h
    have hall := exists_physicals_eq_ok.1 ⟨ps, h⟩
    simp only [List.forall_mem_map, List.mem_range] at hall
    choose! p hp using hall
    rw [hplaces hp] at h
    exact ⟨p, hp, (Access.ok.inj h).symm⟩
  · rintro ⟨p, hp, rfl⟩
    exact hplaces hp

/-- The exception of a translation is that of the lowest byte that does not translate (R63). -/
theorem physicals_range_eq_fault {f : Fault} :
    s.physicals ((List.range n).map a) = .fault f ↔
      ∃ k < n, s.physical (a k) = .fault f ∧ ∀ j < k, ∃ p, s.physical (a j) = .ok p := by
  induction n generalizing a with
  | zero => simp [State.physicals]
  | succ n ih =>
    have htail : (List.range n).map (a ∘ Nat.succ) = (List.range n).map fun k => a (k + 1) := rfl
    simp only [List.range_succ_eq_map, List.map_cons, List.map_map, htail, State.physicals, Access.bind_eq_fault, ih,
      Nat.exists_lt_succ_left, Nat.forall_lt_succ_left, Nat.not_lt_zero, false_implies, implies_true, and_true,
      reduceCtorEq, and_false, exists_false, or_false]
    exact or_congr_right ⟨fun ⟨p, hp, k, hk, hf, hbelow⟩ => ⟨k, hk, hf, ⟨p, hp⟩, hbelow⟩,
      fun ⟨k, hk, hf, ⟨p, hp⟩, hbelow⟩ => ⟨p, hp, k, hk, hf, hbelow⟩⟩

end Bytes

theorem State.physicals_ne_refuse (s : State) (las : List Word64) (r : Refusal) : s.physicals las ≠ .refuse r := by
  induction las with
  | nil => nofun
  | cons la las ih =>
    simp only [State.physicals, ne_eq, Access.bind_eq_refuse, s.physical_ne_refuse, ih, reduceCtorEq, and_false,
      exists_false, or_false, not_false_eq_true]

theorem memGets_eq_none {m : List Host.Cell} {ps : List Nat} :
    memGets m ps = none ↔ ∃ p ∈ ps, memGet m p = none := by
  induction ps with
  | nil => simp [memGets]
  | cons p ps ih =>
    rw [List.exists_mem_cons_iff, ← ih, memGets]
    cases memGet m p <;> cases memGets m ps <;> simp

/-- R52: the little-endian value as a sum over the bytes. -/
theorem littleEndian_map_range (n : Nat) (b : Nat → Byte) :
    littleEndian ((List.range n).map b) = ∑ k ∈ Finset.range n, (b k).toNat * 2 ^ (8 * k) := by
  induction n generalizing b with
  | zero => rfl
  | succ n ih =>
    have hshift (k : Nat) : 256 * ((b (k + 1)).toNat * 2 ^ (8 * k)) = (b (k + 1)).toNat * 2 ^ (8 * (k + 1)) := by ring
    rw [List.range_succ_eq_map, List.map_cons, List.map_map, littleEndian, ih, Finset.sum_range_succ', Finset.mul_sum,
      add_comm]
    simp [hshift]

/-- R52: byte `k` of a little-endian value. -/
theorem littleEndian_div_mod (bs : List Byte) {k : Nat} (hk : k < bs.length) :
    littleEndian bs / 256 ^ k % 256 = bs[k].toNat := by
  induction bs generalizing k with
  | nil => exact absurd hk (Nat.not_lt_zero k)
  | cons b bs ih =>
    have hb := b.isLt
    cases k with
    | zero => simp only [littleEndian, List.getElem_cons_zero]; omega
    | succ k =>
      have htail : (b.toNat + 256 * littleEndian bs) / 256 = littleEndian bs := by omega
      rw [littleEndian, Nat.pow_succ', ← Nat.div_div_eq_div_mul, htail, ih, List.getElem_cons_succ]

/-- Settles O26: each check of `memRead_eq_ok` is met byte by byte. -/
theorem readCompletesWithTheLittleEndianValue : Obligations.ReadCompletesWithTheLittleEndianValue := by
  intro s g ea la n p b hlin hphys hmem hal
  refine memRead_eq_ok.2 ⟨la, _, (List.range n).map b, hlin, physicals_range_eq_ok.2 ⟨p, hphys, rfl⟩, hal, ?_,
    littleEndian_map_range n b⟩
  rw [memGets_eq_some, List.forall₂_map_left_iff, List.forall₂_map_right_iff, List.forall₂_same]
  exact fun k hk => hmem k (List.mem_range.1 hk)

/-! ### The segment, bound or canonical check (R59 to R61) -/

/-- The modes fall into three groups by what makes a linear address (R59). -/
theorem State.mode_cases (s : State) :
    s.mode = .mode64 ∨ (s.mode = .real ∨ s.mode = .v86) ∨ s.mode = .compat ∨ s.mode = .prot := by
  cases s.mode <;> simp

/-- An offset that does not wrap (D18). -/
theorem toNat_add_ofNat {a : Word64} {k : Nat} (h : a.toNat + k < 2 ^ 64) :
    (a + BitVec.ofNat 64 k).toNat = a.toNat + k := by
  rw [BitVec.toNat_add, BitVec.toNat_ofNat]
  omega

section ByteAddr
variable {s : State} (la : Word64) (k : Nat)

theorem State.byteAddr_of_full (hm : s.mode = .mode64 ∨ s.mode = .real ∨ s.mode = .v86) :
    s.byteAddr la k = la + BitVec.ofNat 64 k := by
  rcases hm with hm | hm | hm <;> simp only [State.byteAddr, hm]

theorem State.byteAddr_of_segBase (hm : s.mode = .compat ∨ s.mode = .prot) :
    s.byteAddr la k = cutTo .a32 (la + BitVec.ofNat 64 k) := by
  rcases hm with hm | hm <;> simp only [State.byteAddr, hm]

/-- The lowest byte of the operand that byte `k` begins is byte `k`. -/
theorem State.byteAddr_byteAddr_zero : s.byteAddr (s.byteAddr la k) 0 = s.byteAddr la k := by
  rcases or_assoc.2 s.mode_cases with hm | hm
  · rw [State.byteAddr_of_full _ 0 hm, BitVec.add_zero]
  · rw [State.byteAddr_of_segBase _ 0 hm, State.byteAddr_of_segBase la k hm, BitVec.add_zero, ← BitVec.toNat_inj]
    simp only [cutTo_a32_toNat, Nat.mod_mod]

end ByteAddr

/-- R60: the bits from `VA_BITS - 1` up are all equal exactly in the lower and the upper half of the space. -/
theorem State.canonical_iff (s : State) (a : Word64) : s.canonical a = true ↔ canonicalNumber s.vaBits a.toNat := by
  have ha := a.isLt
  have hzero (w : Nat) : (0 : BitVec w).toNat = 0 := BitVec.toNat_zero
  unfold State.canonical canonicalNumber
  cases s.vaBits <;>
  · simp only [Bool.or_eq_true, beq_iff_eq, ← BitVec.toNat_inj, BitVec.extractLsb'_toNat, BitVec.toNat_allOnes,
      Nat.shiftRight_eq_div_pow, vaWidth, hzero]
    omega

/-- R60, D18: every byte of an operand that does not run past `2^64` is checked. -/
theorem State.all_canonical_iff {s : State} (hm : s.mode = .mode64) {la : Word64} {n : Nat}
    (h : la.toNat + n ≤ 2 ^ 64) :
    ((List.range n).all fun k => s.canonical (s.byteAddr la k)) = true ↔
      ∀ k < n, canonicalNumber s.vaBits (la.toNat + k) := by
  rw [List.all_eq_true]
  refine forall_congr' fun k => ?_
  rw [List.mem_range]
  refine imp_congr_right fun hk => ?_
  rw [State.canonical_iff, State.byteAddr_of_full la k (.inl hm), toNat_add_ofNat (by omega)]

/-- R61: every offset of the operand lies in a readable range. -/
theorem State.inSegment_iff {s : State} {g : Seg} {ea : Word64} {n : Nat} :
    s.inSegment g ea n = true ↔
      ∀ k < n, ∃ r ∈ (s.segs.get g).readable, r.1 ≤ ea.toNat + k ∧ ea.toNat + k ≤ r.2 := by
  simp [State.inSegment]

theorem State.inSegment_byte {s : State} {g : Seg} {ea : Word64} {n k : Nat} (hfit : ea.toNat + n ≤ 2 ^ 64) (hk : k < n)
    (h : s.inSegment g ea n = true) : s.inSegment g (ea + BitVec.ofNat 64 k) 1 = true := by
  rw [State.inSegment_iff] at h ⊢
  intro j hj
  rw [Nat.lt_one_iff.1 hj, toNat_add_ofNat (by omega)]
  exact h k hk

section Outside
variable {s : State} {g : Seg} {ea : Word64} {n : Nat}

theorem State.outside_of_mode64 (hm : s.mode = .mode64) :
    s.outside g ea n ↔ (s.segBase64 g + ea).toNat + n ≤ 2 ^ 64 ∧
      ∃ k < n, ¬canonicalNumber s.vaBits ((s.segBase64 g + ea).toNat + k) := by
  simp only [State.outside, hm]

theorem State.outside_of_selector (hm : s.mode = .real ∨ s.mode = .v86) :
    s.outside g ea n ↔ 0xFFFF < ea.toNat + n - 1 := by
  rcases hm with hm | hm <;> simp only [State.outside, hm]

theorem State.outside_of_segBase (hm : s.mode = .compat ∨ s.mode = .prot) :
    s.outside g ea n ↔ ¬s.inSegment g ea n = true := by
  rcases hm with hm | hm <;> simp [State.outside, hm, State.inSegment_iff]

/-- The check is refused in 64-bit mode alone, on an operand that runs past `2^64` (R53, D18). -/
theorem State.linear_eq_refuse {r : Refusal} :
    s.linear g ea n = .refuse r ↔
      r = .operandWraps ∧ s.mode = .mode64 ∧ 2 ^ 64 < (s.segBase64 g + ea).toNat + n := by
  rcases s.mode_cases with hm | hm | hm
  · rw [State.linear_of_mode64 g ea n hm]
    split
    · next h => exact ⟨fun e => ⟨(Access.refuse.inj e).symm, hm, h⟩, fun ⟨hr, _, _⟩ => by rw [hr]⟩
    · next h => split <;> exact ⟨(nofun), fun ⟨_, _, hw⟩ => absurd hw h⟩
  · rw [State.linear_of_selector g ea n hm]
    rcases hm with hm | hm <;> split <;> simp [hm]
  · rw [State.linear_of_segBase g ea n hm]
    rcases hm with hm | hm <;> split <;> simp [hm]

/-- A check that raises its exception or answers. -/
theorem Access.ite_fault_eq_fault {α : Type} {c : Prop} [Decidable c] {v : α} {f f' : Fault} :
    (if c then Access.fault f' else .ok v) = .fault f ↔ f = f' ∧ c := by
  split <;> simp_all [eq_comm]

/-- The check raises its exception exactly on an operand that is outside (R60, R61). -/
theorem State.linear_eq_fault {f : Fault} :
    s.linear g ea n = .fault f ↔ f = segmentFault g ∧ s.outside g ea n := by
  rcases s.mode_cases with hm | hm | hm
  · rw [State.linear_of_mode64 g ea n hm, State.outside_of_mode64 hm]
    split
    · next hw => exact ⟨(nofun), fun ⟨_, hfit, _⟩ => absurd hw (Nat.not_lt.2 hfit)⟩
    · next hw =>
      have hfit := Nat.not_lt.1 hw
      rw [← ite_not, Access.ite_fault_eq_fault, State.all_canonical_iff hm hfit, and_iff_right hfit]
      push Not
      rfl
  · rw [State.linear_of_selector g ea n hm, State.outside_of_selector hm, Access.ite_fault_eq_fault]
  · rw [State.linear_of_segBase g ea n hm, State.outside_of_segBase hm, ← ite_not, Access.ite_fault_eq_fault]

/-- 64-bit mode: the operand does not wrap, and all its bytes are canonical (R60, D18). -/
theorem State.linear_mode64_eq_ok (hm : s.mode = .mode64) {la : Word64} :
    s.linear g ea n = .ok la ↔
      s.segBase64 g + ea = la ∧ la.toNat + n ≤ 2 ^ 64 ∧ ∀ k < n, canonicalNumber s.vaBits (la.toNat + k) := by
  rw [State.linear_of_mode64 g ea n hm]
  constructor
  · intro h
    split at h
    · cases h
    · next hw =>
      split at h <;> cases h
      next hc => exact ⟨rfl, Nat.not_lt.1 hw, (State.all_canonical_iff hm (Nat.not_lt.1 hw)).1 hc⟩
  · rintro ⟨rfl, hfit, hc⟩
    rw [if_neg (Nat.not_lt.2 hfit), if_pos ((State.all_canonical_iff hm hfit).2 hc)]

/-- An operand that passes the check passes it byte by byte, and byte `k` is found at its own place. -/
theorem State.linear_byte {la : Word64} {k : Nat} (hea : s.mode = .mode64 ∨ ea.toNat + n ≤ 2 ^ 64) (hk : k < n)
    (h : s.linear g ea n = .ok la) : s.linear g (ea + BitVec.ofNat 64 k) 1 = .ok (s.byteAddr la k) := by
  rcases s.mode_cases with hm | hm | hm
  · rw [State.linear_mode64_eq_ok hm] at h ⊢
    obtain ⟨rfl, hfit, hc⟩ := h
    rw [State.byteAddr_of_full _ k (.inl hm), toNat_add_ofNat (by omega), BitVec.add_assoc]
    refine ⟨rfl, by omega, fun j hj => ?_⟩
    rw [Nat.lt_one_iff.1 hj]
    exact hc k hk
  · have hfit := hea.resolve_left (by rcases hm with hm | hm <;> simp [hm])
    rw [State.linear_of_selector g _ _ hm] at h ⊢
    split at h <;> cases h
    rw [toNat_add_ofNat (by omega), if_neg (by omega), State.byteAddr_of_full _ k (.inr hm), State.linearReal,
      State.linearReal, BitVec.add_assoc]
  · have hfit := hea.resolve_left (by rcases hm with hm | hm <;> simp [hm])
    rw [State.linear_of_segBase g _ _ hm] at h ⊢
    split at h <;> cases h
    next hin =>
    rw [if_pos (State.inSegment_byte hfit hk hin), State.byteAddr_of_segBase _ k hm, Access.ok.injEq,
      ← BitVec.toNat_inj]
    simp only [cutTo_a32_toNat, BitVec.toNat_add, BitVec.toNat_ofNat]
    omega

end Outside

/-! ### Reads that complete, are refused or fault (R53) -/

theorem State.misaligned_one (s : State) (la : Word64) : s.misaligned la 1 = false := by
  simp [State.misaligned]

/-- Settles O27: byte `k` of the wide read has its own linear and physical address, and its digit of the value. -/
theorem wideReadsSeeTheSameBytes : Obligations.WideReadsSeeTheSameBytes := by
  intro s g ea n k v hea hk h
  obtain ⟨la, ps, bs, hlin, hphys, -, hmem, rfl⟩ := memRead_eq_ok.1 h
  have hplaces := physicals_eq_ok.1 hphys
  have hbytes := memGets_eq_some.1 hmem
  have hps : n = ps.length := by simpa using hplaces.length_eq
  have hbs : ps.length = bs.length := hbytes.length_eq
  have hplace : s.physical (s.byteAddr la k) = .ok ps[k] := by
    simpa using hplaces.get (i := k) (by simpa using hk) (hps ▸ hk)
  have hread := readCompletesWithTheLittleEndianValue s g (ea + BitVec.ofNat 64 k) (s.byteAddr la k) 1 (fun _ => ps[k])
    (fun _ => bs[k]) (State.linear_byte hea hk hlin)
    (fun j hj => by rwa [Nat.lt_one_iff.1 hj, State.byteAddr_byteAddr_zero])
    (fun _ _ => hbytes.get _ _) (s.misaligned_one _)
  rw [hread, littleEndian_div_mod bs (hbs ▸ hps ▸ hk)]
  simp

/-- A read that is refused: the operand wraps, or every check passed and the launch memory does not hold some byte (R53,
R57). -/
theorem memRead_eq_refuse {s : State} {g : Seg} {ea : Word64} {n : Nat} {r : Refusal} :
    s.memRead g ea n = .refuse r ↔
      s.linear g ea n = .refuse r ∨
        r = .outsideLaunchMemory ∧ ∃ la ps, s.linear g ea n = .ok la ∧
          s.physicals ((List.range n).map (s.byteAddr la)) = .ok ps ∧ s.misaligned la n = false ∧
            memGets s.mem ps = none := by
  have hread (la : Word64) : s.readLinear la n = .refuse r ↔ r = .outsideLaunchMemory ∧
      ∃ ps, s.physicals ((List.range n).map (s.byteAddr la)) = .ok ps ∧ s.misaligned la n = false ∧
        memGets s.mem ps = none := by
    simp only [State.readLinear, Access.bind_eq_refuse, s.physicals_ne_refuse, false_or, ← exists_and_left]
    refine exists_congr fun ps => ?_
    rw [and_left_comm]
    refine and_congr_right fun _ => ?_
    cases s.misaligned la n <;> cases memGets s.mem ps <;> simp [eq_comm]
  rw [State.memRead, Access.bind_eq_refuse]
  refine or_congr_right ?_
  simp only [hread]
  exact ⟨fun ⟨la, hl, hr, ps, h⟩ => ⟨hr, la, ps, hl, h⟩, fun ⟨hr, la, ps, hl, h⟩ => ⟨la, hl, hr, ps, h⟩⟩

/-- Settles O28: the two cases of `memRead_eq_refuse`, the second byte by byte. -/
theorem readRefusalsExactly : Obligations.ReadRefusalsExactly := by
  intro s g ea n r
  rw [memRead_eq_refuse, State.linear_eq_refuse]
  refine or_congr_right (and_congr_right fun _ => ?_)
  simp only [physicals_range_eq_ok]
  constructor
  · rintro ⟨la, -, hl, ⟨p, hp, rfl⟩, hal, hnone⟩
    exact ⟨la, p, hl, hp, hal, by simpa [memGets_eq_none] using hnone⟩
  · rintro ⟨la, p, hl, hp, hal, hnone⟩
    exact ⟨la, _, hl, ⟨p, hp, rfl⟩, hal, by simpa [memGets_eq_none] using hnone⟩

theorem State.physicals_fault {s : State} {las : List Word64} {f : Fault} (h : s.physicals las = .fault f) :
    ∃ code la, f = .pf code la := by
  obtain ⟨-, la, -, -, -, hla⟩ := physicals_eq_fault.1 h
  obtain ⟨code, hf⟩ := State.physical_fault hla
  exact ⟨code, la, hf⟩

theorem segmentFault_eq_ss0_iff {g : Seg} : .ss0 = segmentFault g ↔ g = .ss := by
  unfold segmentFault
  split <;> simp [*]

theorem segmentFault_eq_gp0_iff {g : Seg} : .gp0 = segmentFault g ↔ g ≠ .ss := by
  unfold segmentFault
  split <;> simp [*]

/-- `#SS(0)` and `#GP(0)` are raised by the first check of a read alone (R179). -/
theorem memRead_eq_segmentFault {s : State} {g : Seg} {ea : Word64} {n : Nat} {f : Fault} (hf : f = .ss0 ∨ f = .gp0) :
    s.memRead g ea n = .fault f ↔ f = segmentFault g ∧ s.outside g ea n := by
  have hphys (las : List Word64) : s.physicals las ≠ .fault f := by
    intro h
    obtain ⟨code, a, rfl⟩ := State.physicals_fault h
    simp at hf
  have hac : f ≠ .ac0 := by rintro rfl; simp at hf
  simp only [memRead_eq_fault, hphys, hac, and_false, exists_false, or_false, State.linear_eq_fault]

/-- Settles O30: the segment decides which of the two exceptions the first check raises. -/
theorem segmentFaultsExactly : Obligations.SegmentFaultsExactly := by
  intro i s o hw ho hs hl
  rw [exec_eq_fault_of_mem hw ho hs hl, exec_eq_fault_of_mem hw ho hs hl, memRead_eq_segmentFault (.inl rfl),
    memRead_eq_segmentFault (.inr rfl), segmentFault_eq_ss0_iff, segmentFault_eq_gp0_iff]
  exact ⟨Iff.rfl, Iff.rfl⟩

theorem segmentFault_ne_pf (g : Seg) (code : BitVec 32) (a : Word64) : segmentFault g ≠ .pf code a := by
  unfold segmentFault
  split <;> nofun

/-- Settles O31: of the three checks of a read only translation raises `#PF`, and it does so at the byte it asks for. -/
theorem pageFaultsExactly : Obligations.PageFaultsExactly := by
  intro i s o code a hw ho hs hl
  rw [exec_eq_fault_of_mem hw ho hs hl, memRead_eq_fault]
  simp only [State.linear_eq_fault, (segmentFault_ne_pf _ code a).symm, false_and, false_or, physicals_range_eq_fault,
    reduceCtorEq, and_false, exists_false, or_false]
  constructor
  · rintro ⟨la, hlin, k, hk, hfault, hbelow⟩
    obtain ⟨code', hpf⟩ := State.physical_fault hfault
    cases hpf
    exact ⟨la, k, hlin, hk, rfl, hfault, hbelow⟩
  · rintro ⟨la, k, hlin, hk, rfl, hfault, hbelow⟩
    exact ⟨la, hlin, k, hk, hfault, hbelow⟩

/-! ### Text and data (R55, R211) -/

theorem State.memRead_code (s : State) (base : Word64) (bytes : List Byte) (g : Seg) (ea : Word64) (n : Nat) :
    State.memRead { s with codeBase := base, code := bytes } g ea n = s.memRead g ea n :=
  State.memRead_congr rfl rfl rfl rfl rfl

/-- An execution does not see the program text. -/
theorem exec_code (i : Instr) (s : State) (base : Word64) (bytes : List Byte) :
    exec i { s with codeBase := base, code := bytes } =
      onNext (fun t => { t with codeBase := base, code := bytes }) (exec i s) := by
  refine exec_onNext (s' := { s with codeBase := base, code := bytes })
    (fun t => { t with codeBase := base, code := bytes }) rfl rfl ?_ fun v => rfl
  cases i.src with
  | reg r => cases i.form <;> rfl
  | mem o => rw [State.source_mem, State.memRead_code]; rfl

/-- Settles O58: no part of a fetch looks at the data memory, and `exec_code` says what an execution does not see. -/
theorem textAndDataAreSeparateViews : Obligations.TextAndDataAreSeparateViews :=
  ⟨fun _ _ => rfl, exec_code⟩

end Sys2Proof.Machine
end

section
/-! Proofs for 30_encoding.md. First the decoder: it reads every encoding back, what it reads has an encoding, and
what the legacy bytes in front may be; then effective addresses and segments, the rows with a REX byte and W = 0, and
the upper half of the destination. -/

namespace Sys2Proof

open Machine

/-! ### The decoder reads every encoding back (R103) -/

/-- R103: what the decoder answers, part by part: legacy bytes with F2 among them, perhaps a REX byte, the opcode, the
row and its operands. -/
theorem decode_eq_ok {c : CodeContext} {bs : List Byte} {r : Instr × List Byte} :
    decode c bs = .ok r ↔
      ∃ p bs1 f1 bs2 f, readLegacy c.mode .empty bs = .ok (p, bs1) ∧ p.pF2 = true ∧
        readOpcode (readRex c.mode bs1).2 = .ok (f1, bs2) ∧ chooseForm c p.p66 (readRex c.mode bs1).1 f1 = .ok f ∧
          readOperands c p (readRex c.mode bs1).1 f bs2 = .ok r := by
  constructor
  · intro h
    unfold decode at h
    split at h
    · cases h
    · next p bs1 hleg =>
      split at h
      · cases h
      · next f1 bs2 hop =>
        split at h
        · next hF2 =>
          split at h
          · cases h
          · next f hf => exact ⟨p, bs1, f1, bs2, f, hleg, hF2, hop, hf, h⟩
        · cases h
  · rintro ⟨p, bs1, f1, bs2, f, hleg, hF2, hop, hf, h⟩
    simp only [decode, hleg, hop, hF2, hf, h, if_true]

/-- A form that has an encoding without a REX byte names no register that needs a bit of one (R82). -/
theorem AddrForm.rex_bits_of_wellFormed {m : Mode} {a : AddrSize} {f : AddrForm} (h : f.wellFormed m a false = true) :
    f.rexX = false ∧ f.rexB = false := by
  cases f with
  | base b d => simp_all [AddrForm.wellFormed, AddrForm.rexX, AddrForm.rexB, Reg.nameable]
  | sib b x d | sibNoBase x d =>
    cases x <;>
      simp_all [AddrForm.wellFormed, indexWellFormed, Index.wellFormed, AddrForm.rexX, AddrForm.rexB, Reg.nameable]
  | _ => exact ⟨rfl, rfl⟩

theorem Source.rex_bits_of_wellFormed {m : Mode} {src : Source} (h : src.wellFormed m false = true) :
    src.rexX = false ∧ src.rexB = false := by
  cases src with
  | reg i => simpa [Source.wellFormed, Reg.nameable, Source.rexX, Source.rexB] using h
  | mem o =>
    simp only [Source.wellFormed, MemOperand.wellFormed, Bool.and_eq_true] at h
    obtain ⟨-, hform⟩ := h
    exact AddrForm.rex_bits_of_wellFormed hform

/-- The override of an instruction that has an encoding is one the mode admits (R94). -/
theorem Instr.override_of_wellFormed {m : Mode} {i : Instr} (h : i.wellFormed m = true) :
    overrideWellFormed m i.src.override = true := by
  simp only [Instr.wellFormed, Form.wellFormed, Bool.and_eq_true] at h
  obtain ⟨-, hsrc⟩ := h
  cases hs : i.src with
  | reg r => rfl
  | mem o =>
    simp only [hs, Source.wellFormed, MemOperand.wellFormed, Bool.and_eq_true] at hsrc
    obtain ⟨⟨-, hover⟩, -⟩ := hsrc
    exact hover

theorem Instr.instr_form (i : Instr) : i.form.instr i.lock i.dst i.src = i := by cases i <;> rfl

/-- The bits of the REX byte in an encoding, where it has one (R82). -/
def encodedRex (f : Form) (dst : Reg) (src : Source) : Option Rex :=
  if f.hasRex then some { w := f.rexW, r := dst.extended, x := src.rexX, b := src.rexB } else none

/-- The REX byte of an encoding, or its absence before the opcode, read back (R82). -/
theorem readRex_rexBytes {m : Mode} {f : Form} {dst : Reg} {src : Source} (hm : f.hasRex = true → m = .mode64)
    (bs : List Byte) :
    readRex m (rexBytes f dst src ++ 0x0F :: bs) = (encodedRex f dst src, 0x0F :: bs) := by
  cases hf : f.hasRex with
  | true => simp [rexBytes, encodedRex, hf, readRex, hm hf]
  | false => simp [rexBytes, encodedRex, hf, readRex]

theorem readOpcode_opcode (f1 : Bool) (bs : List Byte) :
    readOpcode (0x0F :: 0x38 :: (if f1 then 0xF1 else 0xF0) :: bs) = .ok (f1, bs) := by
  cases f1 <;> rfl

/-- The ModRM byte, operands and displacement of an encoding read back (R86 to R96). -/
theorem readOperands_encoded {c : CodeContext} {i : Instr} {p : Legacy} (hw : i.wellFormed c.mode = true)
    (hl : p.lock = i.lock) (h67 : p.p67 = i.src.needs67 c) (hs : p.seg = i.src.override) (rest : List Byte) :
    readOperands c p (encodedRex i.form i.dst i.src) i.form
        (FieldByte.byte { top := i.src.encode.1, mid := i.dst.code, low := i.src.encode.2.1 } ::
          (i.src.encode.2.2 ++ rest)) = .ok (i, rest) := by
  simp only [Instr.wellFormed, Form.wellFormed, Bool.and_eq_true] at hw
  obtain ⟨⟨-, hdst⟩, hsrc⟩ := hw
  have hread (rx : Rex) (hx : rx.x = i.src.rexX) (hb : rx.b = i.src.rexB) :=
    readSource_encoded c i.src i.form.hasRex p rx i.dst.code rest hsrc h67 hs hx hb
  cases hr : i.form.hasRex with
  | true => simp [readOperands, encodedRex, hr, Rex.ofOption, hread, hl, Instr.instr_form]
  | false =>
    rw [hr] at hsrc hdst
    obtain ⟨hx, hb⟩ := Source.rex_bits_of_wellFormed hsrc
    have hd : Reg.ofField false i.dst.code = i.dst := Reg.ofField_false_code (by simpa [Reg.nameable] using hdst)
    simp [readOperands, encodedRex, hr, Rex.ofOption, hread, hx, hb, hl, hd, Instr.instr_form]

/-- Behind the legacy bytes of an encoding stands a byte that is none, so their loop ends there (R98, R103). -/
theorem readLegacy_legacyBytes {c : CodeContext} {f : Form} {dst : Reg} {src : Source} (lock : Bool)
    (h : overrideWellFormed c.mode src.override = true) (bs : List Byte) :
    readLegacy c.mode .empty (legacyBytes c f lock src ++ (rexBytes f dst src ++ 0x0F :: bs)) =
      .ok ({ p66 := f.needs66 c, p67 := src.needs67 c, pF2 := true, lock := lock, seg := src.override },
        rexBytes f dst src ++ 0x0F :: bs) := by
  have hstop : ∃ b t, rexBytes f dst src ++ 0x0F :: bs = b :: t ∧ (b = 0x0F ∨ b.extractLsb' 4 4 = 0x4) := by
    unfold rexBytes
    split
    · exact ⟨_, _, rfl, .inr (Rex.byte_top _)⟩
    · exact ⟨_, _, rfl, .inl rfl⟩
  obtain ⟨b, t, hbt, hb⟩ := hstop
  rw [hbt]
  exact readLegacy_encoded c.mode lock _ _ _ h b t fun p => Legacy.add_eq_none c.mode p b hb

/-- Settles O1: each part of `decode_eq_ok` reads back the part of the encoding that was written for it. -/
theorem decodeReadsBackEveryEncoding : Obligations.DecodeReadsBackEveryEncoding := by
  intro c i rest hw
  have hmode : i.form.hasRex = true → c.mode = .mode64 := fun h => Form.mode_of_wellFormed h hw
  have hbytes : encode c i ++ rest = legacyBytes c i.form i.lock i.src ++ (rexBytes i.form i.dst i.src ++
      0x0F :: 0x38 :: (if i.form.opcodeF1 then 0xF1 else 0xF0) ::
        FieldByte.byte { top := i.src.encode.1, mid := i.dst.code, low := i.src.encode.2.1 } ::
          (i.src.encode.2.2 ++ rest)) := by
    simp [encode, Form.encode]
  rw [hbytes, decode_eq_ok]
  refine ⟨_, _, ?third, ?operandBytes, i.form,
    readLegacy_legacyBytes i.lock (Instr.override_of_wellFormed hw) _, rfl, ?opcode, ?row, ?operands⟩
  case opcode =>
    rw [readRex_rexBytes hmode]
    exact readOpcode_opcode _ _
  case row =>
    rw [readRex_rexBytes hmode]
    exact chooseForm_of_form c i.form _ _ _
  case operands =>
    rw [readRex_rexBytes hmode]
    exact readOperands_encoded hw rfl rfl rfl rest

/-! ### What the decoder reads has an encoding (R100, R103) -/

/-- A reader took the first `n` bytes of `bs` and left `rest`. -/
def Takes (n : Nat) (bs rest : List Byte) : Prop := ∃ used : List Byte, bs = used ++ rest ∧ used.length = n

theorem takes_zero (bs : List Byte) : Takes 0 bs bs := ⟨[], rfl, rfl⟩

theorem Takes.cons {n : Nat} {bs rest : List Byte} (h : Takes n bs rest) (b : Byte) : Takes (n + 1) (b :: bs) rest := by
  obtain ⟨used, rfl, rfl⟩ := h
  exact ⟨b :: used, rfl, rfl⟩

theorem Takes.trans {n k : Nat} {bs bs' rest : List Byte} (h : Takes n bs bs') (h' : Takes k bs' rest) :
    Takes (n + k) bs rest := by
  obtain ⟨used, rfl, rfl⟩ := h
  obtain ⟨used', rfl, rfl⟩ := h'
  exact ⟨used ++ used', by simp, by simp⟩

theorem readDisp8_takes {bs rest : List Byte} {d : Byte} (h : readDisp8 bs = .ok (d, rest)) : Takes 1 bs rest := by
  unfold readDisp8 at h
  split at h <;> cases h
  exact (takes_zero _).cons _

theorem readDisp16_takes {bs rest : List Byte} {d : Word16} (h : readDisp16 bs = .ok (d, rest)) : Takes 2 bs rest := by
  unfold readDisp16 at h
  split at h <;> cases h
  exact ((takes_zero _).cons _).cons _

theorem readDisp32_takes {bs rest : List Byte} {d : Word32} (h : readDisp32 bs = .ok (d, rest)) : Takes 4 bs rest := by
  unfold readDisp32 at h
  split at h <;> cases h
  exact ((((takes_zero _).cons _).cons _).cons _).cons _

theorem readForm32_eq_ok {mk : Word32 → AddrForm} {bs rest : List Byte} {f : AddrForm}
    (h : readForm32 mk bs = .ok (f, rest)) : ∃ d, f = mk d ∧ Takes 4 bs rest := by
  unfold readForm32 at h
  split at h
  · cases h
  · next d _ hd =>
    cases h
    exact ⟨d, rfl, readDisp32_takes hd⟩

/-- A displacement that is read is absent only where `mod` = 00 announces none (R89). -/
theorem readDisp_eq_ok {md : BitVec 2} {mk : Disp → AddrForm} {bs rest : List Byte} {f : AddrForm}
    (h : readDisp md mk bs = .ok (f, rest)) : ∃ d, f = mk d ∧ Takes d.size bs rest ∧ (d = .absent → md = 0) := by
  unfold readDisp at h
  split at h
  · next h0 =>
    cases h
    exact ⟨.absent, rfl, takes_zero _, fun _ => h0⟩
  · split at h
    · split at h
      · cases h
      · next d _ hd =>
        cases h
        exact ⟨.d8 d, rfl, readDisp8_takes hd, nofun⟩
    · obtain ⟨d, rfl, ht⟩ := readForm32_eq_ok h
      exact ⟨.d32 d, rfl, ht, nofun⟩

section Fields
variable {hi rex : Bool} {c : BitVec 3}

theorem Reg.nameable_ofField (h : hi = true → rex = true) : (Reg.ofField hi c).nameable rex = true := by
  cases hi <;> simp_all [Reg.nameable, Reg.ofField_extended]

theorem Reg.ofField_ne {r : Reg} (h : c ≠ r.code) : Reg.ofField hi c ≠ r := by
  rintro rfl
  exact h (Reg.ofField_code_eq hi c).symm

/-- The codes that mean something else with `mod` = 00 are those of RBP and R13 (R89, R90). -/
theorem Disp.fitsBase_ofField {d : Disp} (h : d = .absent → c ≠ 5) : d.fitsBase (Reg.ofField hi c) = true := by
  cases d with
  | absent =>
    have hc := h rfl
    simp [Disp.fitsBase, Reg.ofField_ne (r := .rbp) hc, Reg.ofField_ne (r := .r13) hc]
  | d8 _ | d32 _ => rfl

end Fields

section Forms
variable {m : Mode} {a : AddrSize} {rex : Bool} {x : Rex} {md : BitVec 2} {rm : BitVec 3} {bs rest : List Byte}
  {f : AddrForm}

theorem indexWellFormed_sibIndex (hx : x.x = true → rex = true) (sib : FieldByte) :
    indexWellFormed rex (sibIndex x sib) = true := by
  unfold sibIndex
  split
  · rfl
  · next h => simp [indexWellFormed, Index.wellFormed, Reg.nameable_ofField hx, h]

/-- An address form with a SIB byte that is read has an encoding and the bytes R100 counts. -/
theorem readSib_eq_ok (ha : a ≠ .a16) (hx : x.x = true → rex = true) (hb : x.b = true → rex = true)
    (h : readSib x md bs = .ok (f, rest)) : f.wellFormed m a rex = true ∧ Takes f.size bs rest := by
  cases bs with
  | nil => cases h
  | cons b bs =>
    simp only [readSib] at h
    have hidx := indexWellFormed_sibIndex hx (FieldByte.ofByte b)
    split at h
    · obtain ⟨d, rfl, ht⟩ := readForm32_eq_ok h
      exact ⟨by simp [AddrForm.wellFormed, ha, hidx], ht.cons b⟩
    · next hbase =>
      obtain ⟨d, rfl, ht, habs⟩ := readDisp_eq_ok h
      have hfit : d.fitsBase (Reg.ofField x.b (FieldByte.ofByte b).low) = true :=
        Disp.fitsBase_ofField fun h0 h5 => hbase ⟨habs h0, h5⟩
      refine ⟨by simp [AddrForm.wellFormed, ha, hidx, hfit, Reg.nameable_ofField hb], ?_⟩
      rw [AddrForm.size, Nat.add_comm]
      exact ht.cons b

/-- An address form of address size 32 or 64 that is read has an encoding and the bytes R100 counts. -/
theorem readForm_eq_ok (ha : a ≠ .a16) (hx : x.x = true → rex = true) (hb : x.b = true → rex = true)
    (h : readForm m x md rm bs = .ok (f, rest)) : f.wellFormed m a rex = true ∧ Takes f.size bs rest := by
  unfold readForm at h
  split at h
  · exact readSib_eq_ok ha hx hb h
  · next h4 =>
    split at h
    · obtain ⟨d, rfl, ht⟩ := readForm32_eq_ok h
      split
      · next hm => exact ⟨by simp [AddrForm.wellFormed, ha, hm], ht⟩
      · next hm => exact ⟨by simp [AddrForm.wellFormed, ha, hm], ht⟩
    · next h5 =>
      obtain ⟨d, rfl, ht, habs⟩ := readDisp_eq_ok h
      have hfit : d.fitsBase (Reg.ofField x.b rm) = true := Disp.fitsBase_ofField fun h0 hrm => h5 ⟨habs h0, hrm⟩
      exact ⟨by simp [AddrForm.wellFormed, ha, hfit, Reg.nameable_ofField hb, Reg.ofField_ne (r := .rsp) h4,
        Reg.ofField_ne (r := .r12) h4], ht⟩

theorem Base16.ofCode_ne_bp (h : rm ≠ 6) : Base16.ofCode rm ≠ .bp := by
  revert h
  revert rm
  decide

/-- An address form of address size 16 that is read has an encoding and the bytes R100 counts. -/
theorem readForm16_eq_ok (h : readForm16 md rm bs = .ok (f, rest)) :
    f.wellFormed m .a16 rex = true ∧ Takes f.size bs rest := by
  unfold readForm16 at h
  split at h
  · split at h
    · split at h
      · cases h
      · next hd =>
        cases h
        exact ⟨rfl, readDisp16_takes hd⟩
    · next h6 =>
      cases h
      exact ⟨by simp [AddrForm.wellFormed, Base16.ofCode_ne_bp h6], takes_zero _⟩
  · split at h
    · split at h
      · cases h
      · next hd =>
        cases h
        exact ⟨by simp [AddrForm.wellFormed], readDisp8_takes hd⟩
    · split at h
      · cases h
      · next hd =>
        cases h
        exact ⟨by simp [AddrForm.wellFormed], readDisp16_takes hd⟩

end Forms

/-- Every address size a context gives is one of its mode (R93). -/
theorem CodeContext.addrSize_available (c : CodeContext) (p67 : Bool) : (c.addrSize p67).available c.mode = true := by
  obtain ⟨m, d⟩ := c
  cases m <;> cases d <;> cases p67 <;> rfl

/-- The byte 67 always changes the address size (R93). -/
theorem CodeContext.addrSize_bne (c : CodeContext) (p67 : Bool) : (c.addrSize p67 != c.addrSize false) = p67 := by
  obtain ⟨m, d⟩ := c
  cases m <;> cases d <;> cases p67 <;> rfl

/-- A source operand that is read has an encoding, shows the byte 67 and the segment override, and takes the bytes R100
counts. -/
theorem readSource_eq_ok {c : CodeContext} {p : Legacy} {x : Rex} {modrm : FieldByte} {rex : Bool} {src : Source}
    {bs rest : List Byte} (hp : overrideWellFormed c.mode p.seg = true) (hx : x.x = true → rex = true)
    (hb : x.b = true → rex = true) (h : readSource c p x modrm bs = .ok (src, rest)) :
    src.wellFormed c.mode rex = true ∧ src.needs67 c = p.p67 ∧ src.override = p.seg ∧ Takes src.size bs rest := by
  unfold readSource at h
  split at h
  · split at h
    · cases h
    · next hnone =>
      cases h
      simp only [Bool.or_eq_true, not_or, Bool.not_eq_true, Option.isSome_eq_false_iff,
        Option.isNone_iff_eq_none] at hnone
      obtain ⟨h67, hseg⟩ := hnone
      exact ⟨Reg.nameable_ofField hb, h67.symm, hseg.symm, takes_zero _⟩
  · dsimp only at h
    split at h
    · cases h
    · next f _ hf =>
      cases h
      have hform : f.wellFormed c.mode (c.addrSize p.p67) rex = true ∧ Takes f.size bs rest := by
        split at hf
        · next ha => exact ha ▸ readForm16_eq_ok hf
        · next ha => exact readForm_eq_ok ha hx hb hf
      obtain ⟨hw, ht⟩ := hform
      refine ⟨?_, c.addrSize_bne p.p67, rfl, ht⟩
      simp [Source.wellFormed, MemOperand.wellFormed, c.addrSize_available, hp, hw]

/-- With the byte 66 the operand size is the other one (R84). -/
theorem CodeContext.word16_eq (c : CodeContext) (p66 : Bool) : c.word16 p66 = (c.word16 true == p66) := by
  unfold CodeContext.word16
  cases c.codeSize <;> cases p66 <;> rfl

/-- The row that is chosen has a REX byte and needs the byte 66 just when they stand (R84, R99). -/
theorem chooseForm_eq_ok {c : CodeContext} {p66 f1 : Bool} {rex : Option Rex} {f : Form}
    (h : chooseForm c p66 rex f1 = .ok f) : f.hasRex = rex.isSome ∧ f.needs66 c = p66 := by
  unfold chooseForm at h
  rw [c.word16_eq] at h
  split at h
  case h_1 => split at h <;> cases h; simp_all [Form.hasRex, Form.needs66]
  case h_2 =>
    split at h
    · cases h
    · split at h <;> cases h <;> simp_all [Form.hasRex, Form.needs66]
  case h_3 => split at h <;> cases h <;> simp_all [Form.hasRex, Form.needs66, Bool.eq_not]
  case h_4 =>
    split at h
    · split at h <;> cases h; simp_all [Form.hasRex, Form.needs66]
    · split at h <;> cases h <;> simp_all [Form.hasRex, Form.needs66, Bool.eq_not]

/-- A legacy byte of a kind is taken when none of its kind was seen (R99). -/
theorem ite_repeatedPrefix_eq_ok {seen : Bool} {p q : Legacy} :
    (if seen then .error .repeatedPrefix else .ok (some p) : Except DecodeRefusal (Option Legacy)) = .ok (some q) ↔
      seen = false ∧ q = p := by
  cases seen <;> simp [eq_comm]

theorem segOfByte_eq_some {b : Byte} {g : Seg} (h : segOfByte b = some g) : b = g.byte := by
  unfold segOfByte at h
  split_ifs at h <;> cases h <;> assumption

/-- The legacy byte a step of the loop takes, and what it adds to those seen: each of the five kinds at most once (R98,
R99). -/
theorem Legacy.add_eq_some {m : Mode} {p q : Legacy} {b : Byte} :
    p.add m b = .ok (some q) ↔
      b = 0x66 ∧ p.p66 = false ∧ q = { p with p66 := true } ∨
      b = 0x67 ∧ p.p67 = false ∧ q = { p with p67 := true } ∨
      b = 0xF2 ∧ p.pF2 = false ∧ q = { p with pF2 := true } ∨
      b = 0xF0 ∧ p.lock = false ∧ q = { p with lock := true } ∨
      ∃ g : Seg, b = g.byte ∧ p.seg = none ∧ g.overridable m = true ∧ q = { p with seg := some g } := by
  constructor
  · intro h
    unfold Legacy.add at h
    split at h
    · next hb => exact .inl ⟨hb, ite_repeatedPrefix_eq_ok.1 h⟩
    split at h
    · next hb => exact .inr (.inl ⟨hb, ite_repeatedPrefix_eq_ok.1 h⟩)
    split at h
    · next hb => exact .inr (.inr (.inl ⟨hb, ite_repeatedPrefix_eq_ok.1 h⟩))
    split at h
    · next hb => exact .inr (.inr (.inr (.inl ⟨hb, ite_repeatedPrefix_eq_ok.1 h⟩)))
    split at h
    · cases h
    split at h
    · cases h
    · next g hg =>
      split at h
      · cases h
      · next hseg =>
        split at h <;> cases h
        next hm => exact .inr (.inr (.inr (.inr ⟨g, segOfByte_eq_some hg, by simpa using hseg, hm, rfl⟩)))
  · rintro (⟨rfl, hp, rfl⟩ | ⟨rfl, hp, rfl⟩ | ⟨rfl, hp, rfl⟩ | ⟨rfl, hp, rfl⟩ | ⟨g, rfl, hp, hm, rfl⟩)
    · simp [Legacy.add, hp]
    · simp [Legacy.add, hp]
    · simp [Legacy.add, hp]
    · simp [Legacy.add, hp]
    · cases g <;> simp [Legacy.add, Seg.byte, segOfByte, hp, hm]

/-- How many legacy bytes have been seen. -/
def Legacy.count (p : Legacy) : Nat :=
  p.p66.toNat + p.p67.toNat + p.pF2.toNat + p.lock.toNat + p.seg.isSome.toNat

/-- A legacy byte that is taken counts one more, and an override among them is one the mode admits (R98). -/
theorem Legacy.count_of_add {m : Mode} {p q : Legacy} {b : Byte} (h : p.add m b = .ok (some q))
    (hp : overrideWellFormed m p.seg = true) : q.count = p.count + 1 ∧ overrideWellFormed m q.seg = true := by
  rw [Legacy.add_eq_some] at h
  obtain ⟨-, hold, rfl⟩ | ⟨-, hold, rfl⟩ | ⟨-, hold, rfl⟩ | ⟨-, hold, rfl⟩ | ⟨g, -, hold, hg, rfl⟩ := h
  case inr.inr.inr.inr => exact ⟨by simp [Legacy.count, hold], hg⟩
  all_goals exact ⟨by simp only [Legacy.count, hold, Bool.toNat_true, Bool.toNat_false]; omega, hp⟩

/-- The loop takes as many bytes as it counts more legacy bytes. -/
theorem readLegacy_eq_ok {m : Mode} {q : Legacy} {rest : List Byte} (bs : List Byte) :
    ∀ {p : Legacy}, overrideWellFormed m p.seg = true → readLegacy m p bs = .ok (q, rest) →
      overrideWellFormed m q.seg = true ∧ ∃ n, Takes n bs rest ∧ q.count = p.count + n := by
  induction bs with
  | nil => intro p _ h; cases h
  | cons b bs ih =>
    intro p hp h
    unfold readLegacy at h
    split at h
    · cases h
    · cases h
      exact ⟨hp, 0, takes_zero _, rfl⟩
    · next p' hadd =>
      obtain ⟨hcount, hp'⟩ := Legacy.count_of_add hadd hp
      obtain ⟨hq, n, ht, hn⟩ := ih hp' h
      exact ⟨hq, n + 1, ht.cons b, by omega⟩

/-- A REX byte is read in 64-bit mode alone (R82). -/
theorem readRex_takes (m : Mode) (bs : List Byte) :
    Takes (readRex m bs).1.isSome.toNat bs (readRex m bs).2 ∧ ((readRex m bs).1.isSome = true → m = .mode64) := by
  cases bs with
  | nil => exact ⟨takes_zero _, nofun⟩
  | cons b bs =>
    rw [readRex]
    split
    · next h => exact ⟨(takes_zero _).cons b, fun _ => h.1⟩
    · exact ⟨takes_zero _, nofun⟩

/-- R83, R101: the opcode bytes are 0F 38 F0 and 0F 38 F1. -/
theorem readOpcode_eq_ok {bs rest : List Byte} {f1 : Bool} :
    readOpcode bs = .ok (f1, rest) ↔ bs = 0x0F :: 0x38 :: (if f1 then 0xF1 else 0xF0) :: rest := by
  refine ⟨fun h => ?_, fun h => h ▸ readOpcode_opcode f1 rest⟩
  unfold readOpcode at h
  iterate 5 (split at h; · cases h)
  split at h
  · cases h
    simp_all
  · split at h <;> cases h
    simp_all

theorem Rex.isSome_of_bit {o : Option Rex} {bit : Rex → Bool} (h0 : bit (Rex.ofOption none) = false)
    (h : bit (Rex.ofOption o) = true) : o.isSome = true := by
  cases o with
  | none => rw [h0] at h; cases h
  | some x => rfl

/-- The ModRM byte names the destination, and what follows it the source (R86, R87). -/
theorem readOperands_cons_eq_ok {c : CodeContext} {p : Legacy} {rex : Option Rex} {f : Form} {b : Byte}
    {bs rest : List Byte} {i : Instr} (h : readOperands c p rex f (b :: bs) = .ok (i, rest)) :
    ∃ src, readSource c p (Rex.ofOption rex) (FieldByte.ofByte b) bs = .ok (src, rest) ∧
      i = f.instr p.lock (Reg.ofField (Rex.ofOption rex).r (FieldByte.ofByte b).mid) src := by
  unfold readOperands at h
  dsimp only at h
  split at h
  · cases h
  · next src _ hsrc =>
    cases h
    exact ⟨src, hsrc, rfl⟩

/-- The operands that are read have an encoding in the row, and take the bytes R100 counts. -/
theorem readOperands_eq_ok {c : CodeContext} {p : Legacy} {rex : Option Rex} {f : Form} {i : Instr}
    {bs rest : List Byte} (hp : overrideWellFormed c.mode p.seg = true) (hrex : rex.isSome = true → c.mode = .mode64)
    (hf : f.hasRex = rex.isSome) (h : readOperands c p rex f bs = .ok (i, rest)) :
    ∃ dst src, i = f.instr p.lock dst src ∧ f.wellFormed c.mode dst src = true ∧ src.needs67 c = p.p67 ∧
      src.override = p.seg ∧ Takes (src.size + 1) bs rest := by
  cases bs with
  | nil => cases h
  | cons b bs =>
    obtain ⟨src, hsrc, rfl⟩ := readOperands_cons_eq_ok h
    obtain ⟨hw, h67, hseg, ht⟩ :=
      readSource_eq_ok (rex := rex.isSome) hp (Rex.isSome_of_bit rfl) (Rex.isSome_of_bit rfl) hsrc
    have hmode : (!rex.isSome || c.mode == .mode64) = true := by
      cases rex with
      | none => rfl
      | some x => simp [hrex rfl]
    have hdst := Reg.nameable_ofField (c := (FieldByte.ofByte b).mid) (Rex.isSome_of_bit (bit := Rex.r) (o := rex) rfl)
    exact ⟨_, src, rfl, by simp only [Form.wellFormed, hmode, hf, hdst, hw, Bool.and_self], h67, hseg, ht.cons b⟩

theorem Instr.wellFormed_instr (m : Mode) (f : Form) (lock : Bool) (dst : Reg) (src : Source) :
    (f.instr lock dst src).wellFormed m = f.wellFormed m dst src := by cases f <;> rfl

theorem Instr.len_instr (c : CodeContext) (f : Form) (lock : Bool) (dst : Reg) (src : Source) :
    (f.instr lock dst src).len c = f.len c lock src := by cases f <;> rfl

/-- Settles O2: each part of `decode_eq_ok` takes the bytes its part of R100 counts, and shows what has an encoding. -/
theorem decodedInstructionsHaveAnEncoding : Obligations.DecodedInstructionsHaveAnEncoding := by
  intro c bs rest i h
  obtain ⟨p, bs1, f1, bs2, f, hleg, hF2, hop, hrow, hargs⟩ := decode_eq_ok.1 h
  obtain ⟨hp, n, hn, hcount⟩ := readLegacy_eq_ok bs rfl hleg
  obtain ⟨hrex, hmode⟩ := readRex_takes c.mode bs1
  obtain ⟨hf, h66⟩ := chooseForm_eq_ok hrow
  obtain ⟨dst, src, rfl, hw, h67, hseg, hsrc⟩ := readOperands_eq_ok hp hmode hf hargs
  have hopcode : Takes 3 (readRex c.mode bs1).2 bs2 := by
    rw [readOpcode_eq_ok.1 hop]
    exact (((takes_zero bs2).cons _).cons _).cons _
  obtain ⟨used, hbs, hlen⟩ := hn.trans (hrex.trans (hopcode.trans hsrc))
  refine ⟨by rwa [Instr.wellFormed_instr], used, hbs, ?_⟩
  rw [hlen, Instr.len_instr, Form.len, h66, h67, hseg, hf]
  simp only [Legacy.count, hF2, Legacy.empty, Bool.toNat_true, Bool.toNat_false, Option.isSome_none] at hcount
  omega

/-- `crc32 eax, word fs:[eax + ecx + 0]` with a REX byte: 66 and 67, an override, a SIB byte and four bytes of
displacement. -/
def longest (lock : Bool) : Instr :=
  .crc32R32Rm16Rex lock .rax
    (.mem { asize := .a32, override := some .fs, form := .sib .rax (some { reg := .rcx, scale := .x1 }) (.d32 0) })

/-- Settles O3: `Instr.len_bounds` bounds every instruction; a register source reaches the lower bound, `longest` the
two others. -/
theorem lengthsAreFiveToFifteen : Obligations.LengthsAreFiveToFifteen := by
  refine ⟨fun c i => ?_, ⟨tableContext, .crc32R32Rm32 false .rax (.reg .rcx), by decide⟩,
    ⟨tableContext, longest false, by decide⟩, tableContext, longest true, by decide⟩
  obtain ⟨hlow, hhigh⟩ := i.len_bounds c
  have hlock := i.lock.toNat_le
  exact ⟨hlow, by omega, fun hl => by rw [hl] at hhigh; exact hhigh⟩

/-! ### The legacy bytes (R98, R99) -/

/-- What the loop over the legacy bytes has seen after `bs`, in whatever order: which bytes stand, none twice, no F3, at
most one override and one the mode admits. -/
structure Legacy.Holds (m : Mode) (p : Legacy) (bs : List Byte) : Prop where
  nodup : bs.Nodup
  noF3 : 0xF3 ∉ bs
  p66 : p.p66 = true ↔ 0x66 ∈ bs
  p67 : p.p67 = true ↔ 0x67 ∈ bs
  pF2 : p.pF2 = true ↔ 0xF2 ∈ bs
  lock : p.lock = true ↔ 0xF0 ∈ bs
  seg : ∀ g : Seg, p.seg = some g ↔ g.byte ∈ bs
  overridable : ∀ g : Seg, g.byte ∈ bs → g.overridable m = true

theorem mem_overrideSet {b : Byte} : b ∈ overrideSet ↔ ∃ g : Seg, b = g.byte := by
  constructor
  · intro h
    fin_cases h
    exacts [⟨.es, rfl⟩, ⟨.cs, rfl⟩, ⟨.ss, rfl⟩, ⟨.ds, rfl⟩, ⟨.fs, rfl⟩, ⟨.gs, rfl⟩]
  · rintro ⟨g, rfl⟩
    cases g <;> decide

theorem mem_legacySet {b : Byte} :
    b ∈ legacySet ↔ b = 0x66 ∨ b = 0x67 ∨ b = 0xF2 ∨ b = 0xF0 ∨ b = 0xF3 ∨ ∃ g : Seg, b = g.byte := by
  rw [← mem_overrideSet]
  simp [legacySet, overrideSet]

@[simp] theorem Seg.byte_inj {g g' : Seg} : g.byte = g'.byte ↔ g = g' := by
  cases g <;> cases g' <;> decide

/-- No override byte is one of the other legacy bytes. -/
@[simp] theorem Seg.byte_ne (g : Seg) :
    g.byte ≠ 102#8 ∧ g.byte ≠ 103#8 ∧ g.byte ≠ 242#8 ∧ g.byte ≠ 240#8 ∧ g.byte ≠ 243#8 := by
  cases g <;> decide

@[simp] theorem Seg.ne_byte (g : Seg) :
    102#8 ≠ g.byte ∧ 103#8 ≠ g.byte ∧ 242#8 ≠ g.byte ∧ 240#8 ≠ g.byte ∧ 243#8 ≠ g.byte := by
  cases g <;> decide

/-- The loop ends at the first byte that is no legacy byte. -/
theorem Legacy.add_eq_none_iff {m : Mode} {p : Legacy} {b : Byte} : p.add m b = .ok none ↔ b ∉ legacySet := by
  rw [mem_legacySet]
  constructor
  · rintro h (rfl | rfl | rfl | rfl | rfl | ⟨g, rfl⟩)
    case inr.inr.inr.inr.inr => cases g <;> simp [Legacy.add, Seg.byte, segOfByte, ite_eq_iff] at h
    all_goals simp [Legacy.add, ite_eq_iff] at h
  · intro h
    simp only [not_or] at h
    obtain ⟨h66, h67, hF2, hF0, hF3, hseg⟩ := h
    have hnone : segOfByte b = none :=
      Option.eq_none_iff_forall_ne_some.2 fun g hg => hseg ⟨g, segOfByte_eq_some hg⟩
    simp only [Legacy.add, h66, h67, hF2, hF0, hF3, hnone, if_false]

theorem Legacy.holds_empty (m : Mode) : Legacy.Holds m .empty [] := by
  constructor <;> simp [Legacy.empty]

theorem Legacy.Holds.perm {m : Mode} {p : Legacy} {bs bs' : List Byte} (h : Legacy.Holds m p bs) (hp : bs.Perm bs') :
    Legacy.Holds m p bs' := by
  obtain ⟨h1, h2, h3, h4, h5, h6, h7, h8⟩ := h
  simp only [hp.mem_iff] at h2 h3 h4 h5 h6 h7 h8
  exact ⟨hp.nodup_iff.1 h1, h2, h3, h4, h5, h6, h7, h8⟩

theorem Legacy.Holds.unique {m : Mode} {p q : Legacy} {bs : List Byte} (hp : Legacy.Holds m p bs)
    (hq : Legacy.Holds m q bs) : p = q := by
  have hseg : p.seg = q.seg := Option.ext fun g => (hp.seg g).trans (hq.seg g).symm
  cases p
  cases q
  simp only [Legacy.mk.injEq]
  exact ⟨Bool.eq_iff_iff.2 (hp.p66.trans hq.p66.symm), Bool.eq_iff_iff.2 (hp.p67.trans hq.p67.symm),
    Bool.eq_iff_iff.2 (hp.pF2.trans hq.pF2.symm), Bool.eq_iff_iff.2 (hp.lock.trans hq.lock.symm), hseg⟩

/-- A byte that is taken is added to those seen. -/
theorem Legacy.Holds.add {m : Mode} {p q : Legacy} {b : Byte} {bs : List Byte} (hp : Legacy.Holds m p bs)
    (h : p.add m b = .ok (some q)) : Legacy.Holds m q (b :: bs) := by
  rw [Legacy.add_eq_some] at h
  obtain ⟨hnodup, hF3, h66, h67, hF2, hlock, hseg, hover⟩ := hp
  obtain ⟨rfl, hold, rfl⟩ | ⟨rfl, hold, rfl⟩ | ⟨rfl, hold, rfl⟩ | ⟨rfl, hold, rfl⟩ | ⟨g, rfl, hold, hg, rfl⟩ := h
  case inr.inr.inr.inr =>
    constructor <;> simp_all
    exact fun _ => eq_comm
  all_goals constructor <;> simp_all

/-- A byte is taken when legacy bytes that may stand together hold it and those seen. -/
theorem Legacy.Holds.exists_add {m : Mode} {p q : Legacy} {b : Byte} {bs all : List Byte} (hp : Legacy.Holds m p bs)
    (hq : Legacy.Holds m q all) (hsub : (b :: bs).Sublist all) (hb : b ∈ legacySet) :
    ∃ p', p.add m b = .ok (some p') := by
  have hnew : b ∉ bs := (List.nodup_cons.1 (hq.nodup.sublist hsub)).1
  have hall : b ∈ all := hsub.subset List.mem_cons_self
  have hfirst {seen : Bool} (h : seen = true ↔ b ∈ bs) : seen = false := by simpa using mt h.1 hnew
  obtain rfl | rfl | rfl | rfl | rfl | ⟨g, rfl⟩ := mem_legacySet.1 hb
  · exact ⟨_, Legacy.add_eq_some.2 (.inl ⟨rfl, hfirst hp.p66, rfl⟩)⟩
  · exact ⟨_, Legacy.add_eq_some.2 (.inr (.inl ⟨rfl, hfirst hp.p67, rfl⟩))⟩
  · exact ⟨_, Legacy.add_eq_some.2 (.inr (.inr (.inl ⟨rfl, hfirst hp.pF2, rfl⟩)))⟩
  · exact ⟨_, Legacy.add_eq_some.2 (.inr (.inr (.inr (.inl ⟨rfl, hfirst hp.lock, rfl⟩))))⟩
  · exact absurd hall hq.noF3
  · have hseg : p.seg = none := by
      refine Option.eq_none_iff_forall_ne_some.2 fun g' hg' => hnew ?_
      have hold : g'.byte ∈ bs := (hp.seg g').1 hg'
      have hsame : some g = some g' :=
        ((hq.seg g).2 hall).symm.trans ((hq.seg g').2 (hsub.subset (List.mem_cons_of_mem _ hold)))
      cases hsame
      exact hold
    exact ⟨_, Legacy.add_eq_some.2 (.inr (.inr (.inr (.inr ⟨g, rfl, hseg, hq.overridable g hall, rfl⟩))))⟩

/-- The loop over bytes that are all legacy bytes goes through when they may stand together, and then it has seen
those. -/
theorem readLegacy_append {m : Mode} {rest : List Byte} {r : Legacy × List Byte} (ps : List Byte) :
    ∀ {p : Legacy} {bs : List Byte}, (∀ b ∈ ps, b ∈ legacySet) → Legacy.Holds m p bs →
      (readLegacy m p (ps ++ rest) = .ok r ↔
        ∃ q, Legacy.Holds m q (ps.reverse ++ bs) ∧ readLegacy m q rest = .ok r) := by
  induction ps with
  | nil =>
    intro p bs _ hp
    exact ⟨fun h => ⟨p, hp, h⟩, fun ⟨q, hq, h⟩ => hp.unique hq ▸ h⟩
  | cons b ps ih =>
    intro p bs hps hp
    have hb : b ∈ legacySet := hps b List.mem_cons_self
    have htail : ∀ x ∈ ps, x ∈ legacySet := fun x hx => hps x (List.mem_cons_of_mem b hx)
    rw [List.cons_append, readLegacy, List.reverse_cons, List.append_assoc, List.singleton_append]
    cases hadd : p.add m b with
    | error e =>
      refine ⟨nofun, fun ⟨q, hq, _⟩ => ?_⟩
      obtain ⟨p', hp'⟩ := hp.exists_add hq (List.sublist_append_right _ _) hb
      rw [hadd] at hp'
      cases hp'
    | ok o =>
      cases o with
      | none => exact absurd hb (Legacy.add_eq_none_iff.1 hadd)
      | some p' => exact ih htail (hp.add hadd)

theorem readLegacy_eq_ok_iff {m : Mode} {ps rest : List Byte} {r : Legacy × List Byte} (hps : ∀ b ∈ ps, b ∈ legacySet) :
    readLegacy m .empty (ps ++ rest) = .ok r ↔ ∃ q, Legacy.Holds m q ps ∧ readLegacy m q rest = .ok r := by
  have hperm : (ps.reverse ++ []).Perm ps := by simp
  rw [readLegacy_append ps hps (Legacy.holds_empty m)]
  exact exists_congr fun q => and_congr_left fun _ => ⟨fun h => h.perm hperm, fun h => h.perm hperm.symm⟩

/-- The loop stops before a byte that is no legacy byte. -/
theorem readLegacy_stop {m : Mode} {p q : Legacy} {rest bs : List Byte} (hrest : ∀ b ∈ rest.head?, b ∉ legacySet)
    (h : readLegacy m q rest = .ok (p, bs)) : p = q ∧ bs = rest := by
  cases rest with
  | nil => cases h
  | cons b rest =>
    rw [readLegacy, Legacy.add_eq_none_iff.2 (hrest b rfl)] at h
    cases h
    exact ⟨rfl, rfl⟩

/-- `decode_eq_ok` for bytes in two parts, all the legacy bytes and what follows them. -/
theorem decode_append_eq_ok {c : CodeContext} {ps rest : List Byte} {r : Instr × List Byte}
    (hps : ∀ b ∈ ps, b ∈ legacySet) (hrest : ∀ b ∈ rest.head?, b ∉ legacySet) (h : decode c (ps ++ rest) = .ok r) :
    ∃ p f1 bs f, Legacy.Holds c.mode p ps ∧ p.pF2 = true ∧ readOpcode (readRex c.mode rest).2 = .ok (f1, bs) ∧
      chooseForm c p.p66 (readRex c.mode rest).1 f1 = .ok f ∧
        readOperands c p (readRex c.mode rest).1 f bs = .ok r := by
  obtain ⟨p, bs1, f1, bs, f, hleg, hF2, hop, hrow, hargs⟩ := decode_eq_ok.1 h
  obtain ⟨q, hq, hleg⟩ := (readLegacy_eq_ok_iff hps).1 hleg
  obtain ⟨rfl, rfl⟩ := readLegacy_stop hrest hleg
  exact ⟨p, f1, bs, f, hq, hF2, hop, hrow, hargs⟩

theorem refusedBytes_of_ne_ok {c : CodeContext} {bs : List Byte} (h : ∀ r, decode c bs ≠ .ok r) :
    refusedBytes c bs := by
  cases hd : decode c bs with
  | error e => exact ⟨e, hd⟩
  | ok r => exact absurd hd (h r)

/-- Settles O4: what the loop has seen does not depend on the order. -/
theorem legacyBytesMayStandInAnyOrder : Obligations.LegacyBytesMayStandInAnyOrder := by
  intro c ps qs rest tail i hperm hps h
  have hqs : ∀ b ∈ qs, b ∈ legacySet := fun b hb => hps b (hperm.mem_iff.2 hb)
  rw [decode_eq_ok] at h ⊢
  obtain ⟨p, bs1, f1, bs2, f, hleg, hparts⟩ := h
  obtain ⟨q, hq, hleg⟩ := (readLegacy_eq_ok_iff hps).1 hleg
  exact ⟨p, bs1, f1, bs2, f, (readLegacy_eq_ok_iff hqs).2 ⟨q, hq.perm hperm, hleg⟩, hparts⟩

theorem refusedBytes_of_not_holds {c : CodeContext} {ps : List Byte} (hps : ∀ b ∈ ps, b ∈ legacySet)
    (h : ∀ p, ¬Legacy.Holds c.mode p ps) (rest : List Byte) : refusedBytes c (ps ++ rest) := by
  refine refusedBytes_of_ne_ok fun r hr => ?_
  obtain ⟨p, bs1, -, -, -, hleg, -⟩ := decode_eq_ok.1 hr
  obtain ⟨q, hq, -⟩ := (readLegacy_eq_ok_iff hps).1 hleg
  exact h q hq

/-- Of legacy bytes that may stand together at most one is an override (R98). -/
theorem Legacy.Holds.overrides_le_one {m : Mode} {p : Legacy} {ps : List Byte} (h : Legacy.Holds m p ps) :
    (ps.filter (· ∈ overrideSet)).length ≤ 1 := by
  rw [← List.toFinset_card_of_nodup (h.nodup.filter _), Finset.card_le_one]
  intro a ha b hb
  simp only [List.mem_toFinset, List.mem_filter, decide_eq_true_eq, mem_overrideSet] at ha hb
  obtain ⟨hg, g, rfl⟩ := ha
  obtain ⟨hg', g', rfl⟩ := hb
  have hsame : some g = some g' := ((h.seg g).2 hg).symm.trans ((h.seg g').2 hg')
  cases hsame
  rfl

/-- R94, D12: ES, CS, SS and DS are no overrides in 64-bit mode. -/
theorem exists_not_overridable {b : Byte} (h : b ∈ ([0x26, 0x2E, 0x36, 0x3E] : List Byte)) :
    ∃ g : Seg, b = g.byte ∧ g.overridable .mode64 = false := by
  fin_cases h
  exacts [⟨.es, rfl, rfl⟩, ⟨.cs, rfl, rfl⟩, ⟨.ss, rfl, rfl⟩, ⟨.ds, rfl, rfl⟩]

/-- Settles O5: `Legacy.Holds` says what may stand together. -/
theorem refusedLegacyBytes : Obligations.RefusedLegacyBytes := by
  intro c ps rest hps
  refine ⟨fun hdup => ?_, fun hF3 => ?_, fun htwo => ?_, fun hm ⟨b, hb, hover⟩ => ?_⟩
  · exact refusedBytes_of_not_holds hps (fun p hp => hdup hp.nodup) rest
  · exact refusedBytes_of_not_holds hps (fun p hp => hp.noF3 hF3) rest
  · exact refusedBytes_of_not_holds hps (fun p hp => absurd hp.overrides_le_one (by omega)) rest
  · obtain ⟨g, rfl, hg⟩ := exists_not_overridable hover
    refine refusedBytes_of_not_holds hps (fun p hp => ?_) rest
    have hadmitted := hp.overridable g hb
    rw [hm, hg] at hadmitted
    cases hadmitted

/-! ### REX, F2 and the size bytes 66 and 67 (R81, R82, R99) -/

/-- A REX byte is neither a legacy byte nor the first byte of the opcode. -/
theorem isRexByte_not_mem {b : Byte} (h : isRexByte b = true) : b ∉ legacySet ∧ b ≠ 0x0F := by
  have htop : b.extractLsb' 4 4 = 0x4 := by simpa [isRexByte] using h
  refine ⟨?_, ?_⟩
  · exact (Legacy.add_eq_none_iff (m := .mode64)).1 (Legacy.add_eq_none .mode64 .empty b (.inr htop))
  · rintro rfl
    exact absurd htop (by decide)

/-- A REX byte is taken in 64-bit mode, and left standing elsewhere (R82). -/
theorem readRex_of_isRexByte {m : Mode} {b : Byte} (h : isRexByte b = true) (bs : List Byte) :
    readRex m (b :: bs) = if m = .mode64 then (some (Rex.ofByte b), bs) else (none, b :: bs) := by
  have htop : b.extractLsb' 4 4 = 0x4 := by simpa [isRexByte] using h
  simp [readRex, htop]

theorem readRex_opcode (m : Mode) (bs : List Byte) : readRex m (0x0F :: bs) = (none, 0x0F :: bs) := by simp [readRex]

/-- Settles O6: outside 64-bit mode the REX byte itself stands where the opcode should, in 64-bit mode the byte behind
it. -/
theorem rexOnlyRightBeforeTheOpcodeIn64BitMode : Obligations.RexOnlyRightBeforeTheOpcodeIn64BitMode := by
  intro c ps rest b hps hb
  obtain ⟨hleg, h0F⟩ := isRexByte_not_mem hb
  have hstop (bs : List Byte) : ∀ x ∈ (b :: bs).head?, x ∉ legacySet := by simpa using hleg
  refine ⟨fun hm => refusedBytes_of_ne_ok fun r hr => ?_, fun hm b' hb' => refusedBytes_of_ne_ok fun r hr => ?_⟩
  · obtain ⟨p, f1, bs, f, -, -, hop, -⟩ := decode_append_eq_ok hps (hstop _) hr
    rw [readRex_of_isRexByte hb, if_neg hm, readOpcode_eq_ok] at hop
    exact h0F (List.cons.inj hop).1
  · obtain ⟨p, f1, bs, f, -, -, hop, -⟩ := decode_append_eq_ok hps (hstop _) hr
    rw [readRex_of_isRexByte hb, if_pos hm, readOpcode_eq_ok] at hop
    exact hb' (List.cons.inj hop).1

/-- Settles O7: the loop stops at the first byte that is no legacy byte, without having seen F2. -/
theorem withoutF2NothingDecodes : Obligations.WithoutF2NothingDecodes := by
  intro c ps rest hps hF2 hrest
  refine refusedBytes_of_ne_ok fun r hr => ?_
  obtain ⟨p, f1, bs, f, hp, hseen, -⟩ := decode_append_eq_ok hps hrest hr
  exact hF2 (hp.pF2.1 hseen)

/-- With the byte 66 no row of opcode F0 is chosen, and none with REX.W = 1 (R99). -/
theorem chooseForm_with66 {c : CodeContext} {rex : Option Rex} {f1 : Bool} {f : Form}
    (h : chooseForm c true rex f1 = .ok f) : f1 = true ∧ ∀ x ∈ rex, x.w = false := by
  cases f1 with
  | false => cases rex <;> cases h
  | true =>
    refine ⟨rfl, fun x hx => ?_⟩
    cases hx
    cases hw : x.w with
    | false => rfl
    | true => simp [chooseForm, hw] at h

/-- A register source admits no legacy byte that speaks of memory (R99). -/
theorem readSource_register {c : CodeContext} {p : Legacy} {x : Rex} {modrm : FieldByte} {bs : List Byte}
    {r : Source × List Byte} (htop : modrm.top = 3) (h : readSource c p x modrm bs = .ok r) :
    p.p67 = false ∧ p.seg = none := by
  rw [readSource, if_pos htop] at h
  split at h
  · cases h
  · next hnone => simpa using hnone

/-- Where an opcode is read behind at most one REX byte, that byte is read as such. -/
theorem readRex_before_opcode {m : Mode} {bs : List Byte} {r : Bool × List Byte} :
    ∀ {rex : List Byte}, rex.length ≤ 1 → (∀ b ∈ rex, isRexByte b = true) →
      readOpcode (readRex m (rex ++ 0x0F :: bs)).2 = .ok r →
        readRex m (rex ++ 0x0F :: bs) = (rex.head?.map Rex.ofByte, 0x0F :: bs)
  | [], _, _, _ => readRex_opcode m bs
  | [b], _, hrex, h => by
    have hb : isRexByte b = true := hrex b List.mem_cons_self
    rw [List.singleton_append, readRex_of_isRexByte hb] at h ⊢
    split at h
    · next hm => exact if_pos hm
    · exact absurd (List.cons.inj (readOpcode_eq_ok.1 h)).1 (isRexByte_not_mem hb).2
  | _ :: _ :: _, hlen, _, _ => absurd hlen (by simp)

/-- `decode_append_eq_ok` for bytes that hold the first two bytes of an opcode, perhaps with a REX byte in front. -/
theorem decode_rex_opcode {c : CodeContext} {ps rex bs : List Byte} {op : Byte} {r : Instr × List Byte}
    (hps : ∀ b ∈ ps, b ∈ legacySet) (hlen : rex.length ≤ 1) (hrex : ∀ b ∈ rex, isRexByte b = true)
    (h : decode c (ps ++ (rex ++ 0x0F :: 0x38 :: op :: bs)) = .ok r) :
    ∃ p f1 f, Legacy.Holds c.mode p ps ∧ op = (if f1 then 0xF1 else 0xF0) ∧
      chooseForm c p.p66 (rex.head?.map Rex.ofByte) f1 = .ok f ∧
        readOperands c p (rex.head?.map Rex.ofByte) f bs = .ok r := by
  have hstop : ∀ b ∈ (rex ++ 0x0F :: 0x38 :: op :: bs).head?, b ∉ legacySet := by
    cases rex with
    | nil => simp [legacySet]
    | cons b _ => simpa using (isRexByte_not_mem (hrex b List.mem_cons_self)).1
  obtain ⟨p, f1, tl, f, hp, -, hop, hrow, hargs⟩ := decode_append_eq_ok hps hstop h
  have hread := readRex_before_opcode hlen hrex hop
  rw [hread] at hop hrow hargs
  have hbytes := readOpcode_eq_ok.1 hop
  simp only [List.cons.injEq, true_and] at hbytes
  obtain ⟨hthird, rfl⟩ := hbytes
  exact ⟨p, f1, f, hp, hthird, hrow, hargs⟩

/-- Settles O8: 66 is what `chooseForm_with66` forbids, 67 and an override what `readSource_register` forbids. -/
theorem sizePrefixesWithoutMeaningAreRefused : Obligations.SizePrefixesWithoutMeaningAreRefused := by
  intro c ps rest hps
  refine ⟨fun h66 rex hlen hrex => refusedBytes_of_ne_ok fun r hr => ?_,
    fun h66 b hb hw => refusedBytes_of_ne_ok fun r hr => ?_,
    fun haddr rex op modrm hlen hrex htop => refusedBytes_of_ne_ok fun r hr => ?_⟩
  · obtain ⟨p, f1, f, hp, hop, hrow, -⟩ := decode_rex_opcode hps hlen hrex hr
    rw [hp.p66.2 h66] at hrow
    obtain ⟨rfl, -⟩ := chooseForm_with66 hrow
    exact absurd hop (by decide)
  · obtain ⟨p, f1, f, hp, -, hrow, -⟩ := decode_rex_opcode (rex := [b]) hps le_rfl (by simpa using hb) hr
    rw [hp.p66.2 h66] at hrow
    obtain ⟨-, hfalse⟩ := chooseForm_with66 hrow
    have hwx : b.getLsbD 3 = false := hfalse _ rfl
    rw [hw] at hwx
    cases hwx
  · obtain ⟨p, f1, f, hp, -, -, hargs⟩ := decode_rex_opcode hps hlen hrex hr
    obtain ⟨src, hsrc, -⟩ := readOperands_cons_eq_ok (i := r.1) (rest := r.2) hargs
    obtain ⟨h67, hseg⟩ := readSource_register htop hsrc
    obtain haddr | ⟨b, hb, hover⟩ := haddr
    · rw [hp.p67.2 haddr] at h67
      cases h67
    · obtain ⟨g, rfl⟩ := mem_overrideSet.1 hover
      rw [(hp.seg g).2 hb] at hseg
      cases hseg

end Sys2Proof

namespace Sys2Proof.Machine

/-! ### Effective addresses (R89 to R96) -/

/-- A word is a number modulo 2 to the address size. -/
def Congruent (a : AddrSize) (v : Word64) (z : Int) : Prop := (v.toNat : Int) ≡ z [ZMOD 2 ^ addrBits a]

theorem addrBits_le (a : AddrSize) : addrBits a ≤ 64 := by cases a <;> decide

theorem cutTo_toNat (a : AddrSize) (v : Word64) : (cutTo a v).toNat = v.toNat % 2 ^ addrBits a := by
  cases a with
  | a16 => simp only [cutTo, addrBits, BitVec.toNat_setWidth, BitVec.extractLsb'_toNat, Nat.shiftRight_zero]; omega
  | a32 => exact cutTo_a32_toNat v
  | a64 => exact (Nat.mod_eq_of_lt v.isLt).symm

section Congruent
variable {a : AddrSize} {v w : Word64} {y z : Int}

/-- Words are numbers modulo 2 to the 64, so modulo 2 to every address size. -/
theorem congruent_of_toNat {n : Nat} (h : v.toNat = n % 2 ^ 64) : Congruent a v n := by
  rw [Congruent, h, Int.natCast_mod]
  exact (Int.mod_modEq _ _).of_dvd (by exact_mod_cast pow_dvd_pow 2 (addrBits_le a))

theorem congruent_self : Congruent a v v.toNat := Int.ModEq.refl _

theorem Congruent.add (hv : Congruent a v y) (hw : Congruent a w z) : Congruent a (v + w) (y + z) := by
  have hsum : Congruent a (v + w) (v.toNat + w.toNat : Nat) := congruent_of_toNat (BitVec.toNat_add v w)
  exact hsum.trans (by rw [Nat.cast_add]; exact Int.ModEq.add hv hw)

theorem Congruent.shiftLeft (hv : Congruent a v z) (k : Nat) : Congruent a (v <<< k) (z * 2 ^ k) := by
  have hshift : Congruent a (v <<< k) (v.toNat * 2 ^ k : Nat) :=
    congruent_of_toNat (by rw [BitVec.toNat_shiftLeft, Nat.shiftLeft_eq])
  exact hshift.trans (by push_cast; exact Int.ModEq.mul_right _ hv)

theorem congruent_signExtend {n : Nat} (hn : n ≤ 64) (d : BitVec n) : Congruent a (d.signExtend 64) d.toInt := by
  have hint : ((d.signExtend 64).toNat : Int) ≡ (d.signExtend 64).toInt [ZMOD 2 ^ 64] := by
    rw [BitVec.toInt_eq_toNat_bmod]
    exact Int.bmod_emod.symm
  rw [BitVec.toInt_signExtend_of_le hn] at hint
  exact hint.of_dvd (by exact_mod_cast pow_dvd_pow 2 (addrBits_le a))

theorem congruent_cutTo : Congruent a (cutTo a v) v.toNat := by
  rw [Congruent, cutTo_toNat]
  push_cast
  exact Int.mod_modEq _ _

theorem congruent_setWidth {n : Nat} (d : BitVec n) : Congruent a (d.setWidth 64) d.toNat :=
  congruent_of_toNat (BitVec.toNat_setWidth 64 d)

theorem congruent_dispValue : ∀ d : Disp, Congruent a (dispValue d) (exactDisp d)
  | .absent => Int.ModEq.refl 0
  | .d8 v => congruent_signExtend (by decide) v
  | .d32 v => congruent_signExtend (by decide) v

theorem congruent_disp16Value : ∀ d : Disp16, Congruent a (disp16Value d) (exactDisp16 d)
  | .absent => Int.ModEq.refl 0
  | .d8 v => congruent_signExtend (by decide) v
  | .d16 v => congruent_setWidth v

variable {s : State}

theorem congruent_addrReg (r : Reg) : Congruent a (s.addrReg a r) (s.r64 r).toNat := congruent_cutTo

theorem congruent_indexTerm : ∀ x : Option Index, Congruent a (s.indexTerm a x) (exactIndex s x)
  | none => Int.ModEq.refl 0
  | some ⟨r, scale⟩ => by
    have h := (congruent_addrReg (a := a) (s := s) r).shiftLeft (scaleShift scale)
    cases scale <;> exact h

/-- R89, R90, R92, R95, R96: what a form adds up is its exact sum, as far as the address size goes. A 16-bit form reads
its registers at 16 bits, so it has to stand at that size. -/
theorem congruent_formSum {m : Mode} {rex : Bool} {f : AddrForm} (next : Word64) (h : f.wellFormed m a rex = true) :
    Congruent a (s.formSum a next f) (exactSum s next f) := by
  cases f with
  | base b d => exact (congruent_addrReg b).add (congruent_dispValue d)
  | sib b x d => exact ((congruent_addrReg b).add (congruent_indexTerm x)).add (congruent_dispValue d)
  | sibNoBase x d => exact (congruent_indexTerm x).add (congruent_signExtend (by decide) d)
  | ripRelative d => exact congruent_self.add (congruent_signExtend (by decide) d)
  | absolute d => exact congruent_signExtend (by decide) d
  | absolute16 d => exact congruent_setWidth d
  | base16 b d =>
    have ha : a = .a16 := by
      simp only [AddrForm.wellFormed, Bool.and_eq_true, beq_iff_eq] at h
      exact h.1
    subst ha
    have hd := congruent_disp16Value (a := .a16) d
    cases b with
    | bxSi | bxDi | bpSi | bpDi => exact ((congruent_addrReg _).add (congruent_addrReg _)).add hd
    | si | di | bp | bx => exact (congruent_addrReg _).add hd

end Congruent

/-- Settles O23: the effective address is the sum cut to the address size, and `congruent_formSum` says what sum that
is. -/
theorem effectiveAddressIsTheSumModuloTheAddressSize : Obligations.EffectiveAddressIsTheSumModuloTheAddressSize := by
  intro s rex next o h
  simp only [MemOperand.wellFormed, Bool.and_eq_true] at h
  obtain ⟨-, hform⟩ := h
  rw [State.ea, cutTo_toNat]
  push_cast
  exact congruent_formSum next hform

/-- Settles O24: an override decides, and without one the form's default, by the register number or the name BP. -/
theorem segmentOfAnOperand : Obligations.SegmentOfAnOperand := by
  have hbase (b : Reg) : baseSegment b = if b.num = 4 ∨ b.num = 5 then .ss else .ds := by cases b <;> rfl
  have hbase16 (b : Base16) : base16Segment b = if b = .bpSi ∨ b = .bpDi ∨ b = .bp then .ss else .ds := by
    cases b <;> rfl
  refine ⟨fun o g h => by rw [operandSegment, h]; rfl, fun o h => ?_⟩
  have hdefault : operandSegment o = formSegment o.form := by rw [operandSegment, h]; rfl
  rw [hdefault]
  cases o.form with
  | base b _ | sib b _ _ => exact hbase b
  | base16 b _ => exact hbase16 b
  | _ => rfl

/-! ### Executions (R80, R152, R153, R157) -/

/-- In 64-bit mode a row with a REX byte has an encoding with every register as source. -/
theorem wellFormed_reg_of_hasRex {f : Form} (hf : f.hasRex = true) (dst r : Reg) :
    f.wellFormed .mode64 dst (.reg r) = true := by
  simp [Form.wellFormed, Source.wellFormed, Reg.nameable, hf]

section RexRows
variable {i : Instr} {s : State} (hm : s.mode = .mode64) (hs : s.sse42 = true) (hl : i.lock = false)
include hm hs hl

/-- In 64-bit mode an instruction with a REX byte and a register source completes with the accumulated value,
zero-extended. -/
theorem exec_rex_reg (hf : i.form.hasRex = true) {r : Reg} (hr : i.src = .reg r) :
    exec i s = .next (s.after i.form i.dst i.src
      ((crc32Acc i.form.srcBits (s.r32 i.dst) (s.view i.form r)).setWidth 64)) := by
  have hw : i.wellFormed s.mode = true := by
    rw [Instr.wellFormed, hr, hm]
    exact wellFormed_reg_of_hasRex hf i.dst r
  rw [exec_of_source hw hs hl (v := s.view i.form r) (by rw [hr]; rfl), hm, write32_mode64]

/-- In 64-bit mode an instruction whose memory source can be read completes with the accumulated value,
zero-extended. -/
theorem exec_mode64_mem {o : MemOperand} {n v : Nat} (ho : i.src = .mem o) (hn : i.form.srcBytes = n)
    (hw : i.wellFormed .mode64 = true) (hv : s.memRead (operandSegment o) (operandEa i o s) n = .ok v) :
    exec i s = .next (s.after i.form i.dst i.src
      ((crc32Acc i.form.srcBits (s.r32 i.dst) (BitVec.ofNat i.form.srcBits v)).setWidth 64)) := by
  have hsrc : s.source i.form.srcBits (s.view i.form) (s.nextPc i.form false i.src) i.src =
      .ok (BitVec.ofNat i.form.srcBits v) := by
    rw [operandEa, hl, ← hn, Form.srcBytes] at hv
    rw [ho, State.source_mem, ← ho, hv, Access.ok_bind]
  rw [exec_of_source (hm ▸ hw) hs hl hsrc, hm, write32_mode64]

end RexRows

/-- Settles O42: `r16` is the view of the row, and two bytes of memory its width. -/
theorem completesR32Rm16Rex : Obligations.CompletesR32Rm16Rex := by
  have hn : Form.srcBytes .r32rm16Rex = 2 := by decide
  exact fun s dst hm hs =>
    ⟨fun r => exec_rex_reg hm hs rfl rfl rfl, fun o v hw hv => exec_mode64_mem hm hs rfl rfl hn hw hv⟩

/-- Settles O43: `r32` is the view of the row, and four bytes of memory its width. -/
theorem completesR32Rm32Rex : Obligations.CompletesR32Rm32Rex := by
  have hn : Form.srcBytes .r32rm32Rex = 4 := by decide
  exact fun s dst hm hs =>
    ⟨fun r => exec_rex_reg hm hs rfl rfl rfl, fun o v hw hv => exec_mode64_mem hm hs rfl rfl hn hw hv⟩

/-- Settles O44: the frame of R156 asks first whether the form has an encoding. -/
theorem formsWithoutEncodingAreRefused : Obligations.FormsWithoutEncodingAreRefused := by
  intro i s hw
  have hform : i.form.wellFormed s.mode i.dst i.src = false := hw
  simp [exec_eq, runForm, hform]

/-! ### The upper half of the destination (R157) -/

theorem State.r16_eq (s : State) (r : Reg) : s.r16 r = (s.r32 r).extractLsb' 0 16 := by
  rw [State.r16, State.r32, BitVec.extractLsb'_extractLsb'_of_le (by decide)]

theorem State.high8_eq (s : State) (r : Reg) : s.high8 r = (s.r32 r).extractLsb' 8 8 := by
  rw [State.high8, State.r32, BitVec.extractLsb'_extractLsb'_of_le (by decide)]

section LowHalves
variable {s s' : State} (h : ∀ r, s'.r32 r = s.r32 r)
include h

/-- Only the row with a 64-bit source reads more of a register than bits 31:0 (R84). -/
theorem State.view_of_r32 {f : Form} (hf : f ≠ .r64rm64) (r : Reg) : s'.view f r = s.view f r := by
  have h16 (r : Reg) : s'.r16 r = s.r16 r := by rw [State.r16_eq, State.r16_eq, h]
  have hlow (r : Reg) : s'.low8 r = s.low8 r := by rw [State.low8_eq, State.low8_eq, h]
  have hhigh (r : Reg) : s'.high8 r = s.high8 r := by rw [State.high8_eq, State.high8_eq, h]
  cases f with
  | r64rm64 => exact absurd rfl hf
  | r32rm8 =>
    cases r with
    | rsp | rbp | rsi | rdi => exact hhigh _
    | _ => exact hlow _
  | r32rm8Rex | r64rm8 => exact hlow r
  | r32rm16 | r32rm16Rex => exact h16 r
  | r32rm32 | r32rm32Rex => exact h r

/-- Only an address of 64 bits reads more of a register than bits 31:0 (R93). -/
theorem State.addrReg_of_r32 {a : AddrSize} (ha : a ≠ .a64) (r : Reg) : s'.addrReg a r = s.addrReg a r := by
  cases a with
  | a16 =>
    have h16 : s'.r16 r = s.r16 r := by rw [State.r16_eq, State.r16_eq, h]
    exact congrArg (BitVec.setWidth 64) h16
  | a32 => exact congrArg (BitVec.setWidth 64) (h r)
  | a64 => exact absurd rfl ha

end LowHalves

/-- An effective address reads the registers of its form at the address size, a 16-bit form always at 16 bits. -/
theorem State.ea_congr {s s' : State} {o : MemOperand} (h16 : ∀ r, s'.addrReg .a16 r = s.addrReg .a16 r)
    (h : ∀ r ∈ formRegs o.form, s'.addrReg o.asize r = s.addrReg o.asize r) (next : Word64) :
    s'.ea next o = s.ea next o := by
  have hidx {x : Option Index} (hx : ∀ r ∈ indexRegs x, s'.addrReg o.asize r = s.addrReg o.asize r) :
      s'.indexTerm o.asize x = s.indexTerm o.asize x := by
    cases x with
    | none => rfl
    | some x => rw [State.indexTerm, State.indexTerm, hx x.reg List.mem_cons_self]
  refine congrArg (cutTo o.asize) ?_
  generalize o.form = f at h
  cases f with
  | base b d => rw [State.formSum, State.formSum, h b List.mem_cons_self]
  | sib b x d =>
    rw [State.formSum, State.formSum, h b List.mem_cons_self, hidx fun r hr => h r (List.mem_cons_of_mem b hr)]
  | sibNoBase x d => rw [State.formSum, State.formSum, hidx h]
  | base16 b d => cases b <;> simp only [State.formSum, State.base16Term, h16]
  | ripRelative d | absolute d | absolute16 d => rfl

/-- The source operand does not read the upper half of the destination: it is another register or less than 64 bits of
it, or memory whose address does not (R93, R157). -/
def ignoresUpperHalf (i : Instr) : Prop :=
  match i.src with
  | .reg r => r ≠ i.dst ∨ i.form ≠ .r64rm64
  | .mem o => i.dst ∉ formRegs o.form ∨ o.asize ≠ .a64

theorem State.setReg_setReg (s : State) (d : Reg) (v w : Word64) : (s.setReg d v).setReg d w = s.setReg d w := by
  simp [State.setReg]

section UpperHalf
variable {s : State} {d : Reg} {x : Word64} (h : x.extractLsb' 0 32 = (s.r64 d).extractLsb' 0 32)

theorem State.r64_setReg_of_ne {r : Reg} (hr : r ≠ d) : (s.setReg d x).r64 r = s.r64 r := s.regs.get_set_of_ne x hr

include h

theorem State.r32_setReg (r : Reg) : (s.setReg d x).r32 r = s.r32 r := by
  by_cases hr : r = d
  · subst hr
    rw [State.r32, State.r64, State.setReg_regs, Gprs.get_set_self, h]
    rfl
  · rw [State.r32, State.r32, State.r64_setReg_of_ne hr]

theorem State.view_setReg {f : Form} {r : Reg} (hr : r ≠ d ∨ f ≠ .r64rm64) :
    (s.setReg d x).view f r = s.view f r := by
  by_cases hf : f = .r64rm64
  · subst hf
    exact State.r64_setReg_of_ne (hr.resolve_right (not_not_intro rfl))
  · exact State.view_of_r32 (State.r32_setReg h) hf r

theorem State.ea_setReg {o : MemOperand} (ho : d ∉ formRegs o.form ∨ o.asize ≠ .a64) (next : Word64) :
    (s.setReg d x).ea next o = s.ea next o := by
  have hlow := State.r32_setReg h
  refine State.ea_congr (State.addrReg_of_r32 hlow (by decide)) (fun r hr => ?_) next
  obtain hd | ha := ho
  · have hne : r ≠ d := fun e => hd (e ▸ hr)
    rw [State.addrReg, State.addrReg, State.r64_setReg_of_ne hne]
  · exact State.addrReg_of_r32 hlow ha r

end UpperHalf

/-- What the destination held above bit 31 has no effect on an execution whose source operand does not read it. -/
theorem exec_setReg_dst {i : Instr} {s : State} {x : Word64} (hm : s.mode = .mode64)
    (hx : x.extractLsb' 0 32 = (s.r64 i.dst).extractLsb' 0 32) (hi : ignoresUpperHalf i) :
    exec i (s.setReg i.dst x) = exec i s := by
  have hlow := State.r32_setReg hx
  have hid (o : Host.Outcome State Fault Refusal) : onNext id o = o := by cases o <;> rfl
  rw [← hid (exec i s)]
  refine exec_onNext id rfl rfl ?source fun v => ?write
  case write =>
    simp only [hlow, State.w32_eq, State.setReg_mode, hm, write32_mode64, State.setReg_setReg]
    rfl
  case source =>
    unfold ignoresUpperHalf at hi
    cases hs : i.src with
    | reg r =>
      rw [hs] at hi
      exact congrArg Access.ok (State.view_setReg hx hi)
    | mem o =>
      rw [hs] at hi
      rw [State.source_mem, State.source_mem, State.ea_setReg hx hi,
        State.memRead_congr (s := s) (s' := s.setReg i.dst x) rfl rfl rfl rfl rfl]
      rfl

/-- Settles O47: `exec_setReg_dst` says what is not read, and a 32-bit write clears the upper half in 64-bit mode. -/
theorem upperHalfOfTheDestinationIsIgnored : Obligations.UpperHalfOfTheDestinationIsIgnored := by
  refine ⟨fun i s x hm hx hi => exec_setReg_dst hm hx hi, fun i s t hm h => ?_⟩
  obtain ⟨-, -, v, rfl⟩ := exec_next_w32 h
  rw [State.setPc_regs, State.w32_get_self, write32_high, if_pos hm]

end Sys2Proof.Machine
end

section
/-! Proofs for 40_crc32_function.md: reflection (R130), the remainder (R131, R132), `Crc32Acc` (R133) and its other
formulations (R135 to R141). -/

namespace Sys2Proof.Machine

/-! ### The remainder of a carry-less division (R132) -/

/-- The carry-less product reads only the bits of the quotient it adds up. -/
theorem clmulBits_congr {p q q' : Nat} : ∀ {k : Nat}, (∀ i < k, q.testBit i = q'.testBit i) →
    clmulBits p q k = clmulBits p q' k
  | 0, _ => rfl
  | k + 1, h => by
    rw [clmulBits, clmulBits, h k k.lt_succ_self, clmulBits_congr fun i hi => h i (Nat.lt_succ_of_lt hi)]

/-- Any number of bits that covers the quotient gives the whole product. -/
theorem clmulBits_of_lt {p q k : Nat} (h : q < 2 ^ k) : clmulBits p q k = clmul q p := by
  have hclear {i : Nat} (hi : q < 2 ^ i) : clmulBits p q (i + 1) = clmulBits p q i := by
    simp [clmulBits, Nat.testBit_lt_two_pow hi]
  by_cases hq : q = 0
  · subst hq
    induction k with
    | zero => simp [clmul, clmulBits]
    | succ k ih => rw [hclear (by positivity), ih (by positivity)]
  · induction k, (Nat.log2_lt hq).2 h using Nat.le_induction with
    | base => rfl
    | succ k hk ih =>
      have hlt := (Nat.log2_lt hq).1 hk
      rw [hclear hlt, ih hlt]

/-- What the descent takes off its argument is a carry-less multiple of the divisor. -/
theorem exists_clmulBits_xor_mod2Down (p t : Nat) : ∀ k a : Nat, ∃ q < 2 ^ k, a = clmulBits p q k ^^^ mod2Down p t k a
  | 0, a => ⟨0, Nat.one_pos, (Nat.zero_xor a).symm⟩
  | k + 1, a => by
    obtain ⟨q, hq, ha⟩ := exists_clmulBits_xor_mod2Down p t k (if a.testBit (t + k) then a ^^^ p <<< k else a)
    have hbit := Nat.testBit_lt_two_pow hq
    rw [mod2Down]
    split at ha
    · next h =>
      have hadd : clmulBits p (2 ^ k + q) (k + 1) = clmulBits p q k ^^^ p <<< k := by
        rw [clmulBits, clmulBits_congr fun i hi => Nat.testBit_two_pow_add_gt hi q, Nat.testBit_two_pow_add_eq, hbit]
        rfl
      refine ⟨2 ^ k + q, by rw [Nat.pow_succ]; omega, ?_⟩
      rw [if_pos h, hadd, Nat.xor_right_comm, ← ha, Nat.xor_xor_cancel_right]
    · next h =>
      refine ⟨q, by rw [Nat.pow_succ]; omega, ?_⟩
      rw [if_neg h, clmulBits, hbit, if_neg Bool.false_ne_true, Nat.xor_zero, ← ha]

section Mod2
variable {p : Nat} (hp : p ≠ 0)

theorem lt_two_pow_log2_add {a k : Nat} (h : a ≤ k) : a < 2 ^ (p.log2 + k) :=
  Nat.lt_two_pow_self.trans_le (Nat.pow_le_pow_right (by decide) (by omega))

include hp

/-- R132: the remainder has no bit at or above the top bit of the divisor. -/
theorem mod2_lt (a : Nat) : mod2 a p < 2 ^ p.log2 := by
  have ha := lt_two_pow_log2_add (p := p) (le_refl a)
  rw [mod2_eq_mod2Down hp ha]
  exact mod2Down_lt hp a a ha

theorem mod2_of_lt {a : Nat} (h : a < 2 ^ p.log2) : mod2 a p = a :=
  mod2_eq_mod2Down (k := 0) hp h

theorem mod2_xor (a b : Nat) : mod2 (a ^^^ b) p = mod2 a p ^^^ mod2 b p := by
  have ha := lt_two_pow_log2_add (p := p) (a.le_add_right b)
  have hb := lt_two_pow_log2_add (p := p) (b.le_add_left a)
  rw [mod2_eq_mod2Down hp ha, mod2_eq_mod2Down hp hb, mod2_eq_mod2Down hp (Nat.xor_lt_two_pow ha hb), mod2Down_xor]

theorem mod2_zero : mod2 0 p = 0 :=
  mod2_of_lt hp (by positivity)

/-- A shifted divisor leaves nothing: the descent meets its top bit first. -/
theorem mod2_shiftLeft_self (k : Nat) : mod2 (p <<< k) p = 0 := by
  have hlt : p <<< k < 2 ^ (p.log2 + (k + 1)) := by
    rw [Nat.add_comm k 1, ← Nat.add_assoc]
    exact Nat.shiftLeft_lt Nat.lt_log2_self
  have htop : (p <<< k).testBit (p.log2 + k) = true := by
    rw [Nat.testBit_shiftLeft]
    simp [testBit_log2 hp]
  have hzero := mod2_eq_mod2Down (k := k) (a := 0) hp (by positivity)
  rw [mod2_eq_mod2Down hp hlt, mod2Down, if_pos htop, Nat.xor_self, ← hzero, mod2_zero hp]

/-- A multiple of the divisor, shifted or not, leaves nothing. -/
theorem mod2_clmulBits_shiftLeft (q n : Nat) : ∀ k : Nat, mod2 (clmulBits p q k <<< n) p = 0
  | 0 => by rw [clmulBits, Nat.zero_shiftLeft, mod2_zero hp]
  | k + 1 => by
    rw [clmulBits, Nat.shiftLeft_xor_distrib, mod2_xor hp, mod2_clmulBits_shiftLeft q n k, Nat.zero_xor]
    split
    · rw [← Nat.shiftLeft_add, mod2_shiftLeft_self hp]
    · rw [Nat.zero_shiftLeft, mod2_zero hp]

theorem exists_clmul_xor_mod2 (a : Nat) : ∃ q, a = clmul q p ^^^ mod2 a p := by
  obtain ⟨q, hq, ha⟩ := exists_clmulBits_xor_mod2Down p p.log2 a a
  rw [clmulBits_of_lt hq, ← mod2_eq_mod2Down hp (lt_two_pow_log2_add le_rfl)] at ha
  exact ⟨q, ha⟩

/-- Taking the remainder before a shift does not change the remainder after it. -/
theorem mod2_mod2_shiftLeft (a n : Nat) : mod2 (mod2 a p <<< n) p = mod2 (a <<< n) p := by
  obtain ⟨q, ha⟩ := exists_clmul_xor_mod2 hp a
  conv_rhs => rw [ha, Nat.shiftLeft_xor_distrib, mod2_xor hp, clmul, mod2_clmulBits_shiftLeft hp, Nat.zero_xor]

end Mod2

/-- Settles O12: `mod2_lt` and `exists_clmul_xor_mod2` say what the remainder is; it is the only one because multiples of
the divisor leave nothing. -/
theorem mod2IsTheRemainder : Obligations.Mod2IsTheRemainder := by
  refine ⟨fun a p hp => ⟨⟨mod2_lt hp a, exists_clmul_xor_mod2 hp a⟩, fun q r hr ha => ?_⟩, mod2_polynomial_lt⟩
  have hmultiple : mod2 (clmul q p) p = 0 := mod2_clmulBits_shiftLeft hp q 0 (q.log2 + 1)
  rw [ha, mod2_xor hp, hmultiple, Nat.zero_xor, mod2_of_lt hp hr]

/-! ### Reflection and the polynomial (R130, R131) -/

theorem bitReflect_bitReflect {n : Nat} (v : BitVec n) : bitReflect (bitReflect v) = v :=
  BitVec.reverse_reverse_eq

theorem bitReflect_xor {n : Nat} (v w : BitVec n) : bitReflect (v ^^^ w) = bitReflect v ^^^ bitReflect w := by
  refine BitVec.eq_of_getLsbD_eq fun i hi => ?_
  simp only [BitVec.getLsbD_xor, bitReflect_getLsbD, hi, decide_true, Bool.true_and]

theorem bitReflect_toNat_testBit {n : Nat} (v : BitVec n) (i : Nat) :
    (bitReflect v).toNat.testBit i = (decide (i < n) && v.getLsbD (n - 1 - i)) := by
  rw [BitVec.testBit_toNat, bitReflect_getLsbD]

/-- In the mirror the low part of a value stands above its high part. -/
theorem bitReflect_toNat_add {a b : Nat} (s : BitVec (a + b)) :
    (bitReflect s).toNat =
      (bitReflect (s.extractLsb' 0 a)).toNat <<< b ^^^ (bitReflect (s.extractLsb' a b)).toNat := by
  refine Nat.eq_of_testBit_eq fun i => ?_
  simp only [Nat.testBit_xor, Nat.testBit_shiftLeft, bitReflect_toNat_testBit, BitVec.getLsbD_extractLsb', Nat.zero_add]
  by_cases hb : i < b
  · simp [hb, show ¬b ≤ i by omega, show i < a + b by omega, show b - 1 - i < b by omega,
      show a + b - 1 - i = a + (b - 1 - i) by omega]
  · by_cases ha : i < a + b
    · simp [hb, ha, show b ≤ i by omega, show i - b < a by omega, show a - 1 - (i - b) < a by omega,
        show a + b - 1 - i = a - 1 - (i - b) by omega]
    · simp [hb, ha, show ¬i - b < a by omega]

/-- Settles O10: `bitReflect_getLsbD` below the width; the examples are computed. -/
theorem bitReflectReversesTheBits : Obligations.BitReflectReversesTheBits := by
  refine ⟨fun n v i hi => ?_, fun n => bitReflect_bitReflect, by decide +kernel⟩
  rw [bitReflect_getLsbD, decide_eq_true hi, Bool.true_and]

/-- Settles O11: the positions below 33 are looked at one by one, and the polynomial has 33 bits. -/
theorem polynomialHasTheListedBits : Obligations.PolynomialHasTheListedBits := by
  have hlow : ∀ i < 33, polynomial.testBit i = true ↔
      i ∈ ([32, 28, 27, 26, 25, 23, 22, 20, 19, 18, 14, 13, 11, 10, 9, 8, 6, 0] : List Nat) := by decide +kernel
  refine ⟨fun i => ?_, by decide +kernel⟩
  by_cases hi : i < 33
  · exact hlow i hi
  · have hclear : polynomial.testBit i = false :=
      Nat.testBit_lt_two_pow (Nat.lt_of_lt_of_le (by decide) (Nat.pow_le_pow_right (by decide) (Nat.le_of_not_lt hi)))
    rw [hclear]
    refine iff_of_false Bool.false_ne_true fun hmem => ?_
    simp only [List.mem_cons, List.not_mem_nil, or_false] at hmem
    omega

/-! ### `Crc32Acc` as a remainder (R133) -/

theorem polynomial_ne_zero : polynomial ≠ 0 := by decide

/-- The number R133 divides: the reflected datum times `x^32` plus the reflected initial value times `x^n`. -/
def crcDividend (n : Nat) (d : Word32) (s : BitVec n) : Nat :=
  (bitReflect s).toNat <<< 32 ^^^ (bitReflect d).toNat <<< n

/-- Widening a value by the shift count loses no bit in the shift. -/
theorem toNat_setWidth_shiftLeft {w k m : Nat} (v : BitVec w) (h : m = w + k) :
    (v.setWidth m <<< k).toNat = v.toNat <<< k := by
  subst h
  rw [← BitVec.shiftLeftZeroExtend_eq, BitVec.toNat_shiftLeftZeroExtend]

theorem crc32Acc_eq {n : Nat} (d : Word32) (s : BitVec n) :
    crc32Acc n d s = bitReflect (BitVec.ofNat 32 (mod2 (crcDividend n d s) polynomial)) := by
  rw [crc32Acc, BitVec.toNat_xor, toNat_setWidth_shiftLeft _ rfl, toNat_setWidth_shiftLeft _ (Nat.add_comm n 32),
    crcDividend]

/-- R133 in the mirror: the reflected result is the remainder. -/
theorem bitReflect_crc32Acc_toNat {n : Nat} (d : Word32) (s : BitVec n) :
    (bitReflect (crc32Acc n d s)).toNat = mod2 (crcDividend n d s) polynomial := by
  rw [crc32Acc_eq, bitReflect_bitReflect, BitVec.toNat_ofNat, Nat.mod_eq_of_lt (mod2_polynomial_lt _)]

theorem eq_of_bitReflect_toNat_eq {n : Nat} {v w : BitVec n} (h : (bitReflect v).toNat = (bitReflect w).toNat) :
    v = w := by
  rw [← bitReflect_bitReflect v, BitVec.eq_of_toNat_eq h, bitReflect_bitReflect]

/-! ### Linearity and parts (R136, R137) -/

theorem crcDividend_xor {n : Nat} (d d' : Word32) (s s' : BitVec n) :
    crcDividend n (d ^^^ d') (s ^^^ s') = crcDividend n d s ^^^ crcDividend n d' s' := by
  rw [crcDividend, bitReflect_xor, bitReflect_xor, BitVec.toNat_xor, BitVec.toNat_xor, Nat.shiftLeft_xor_distrib,
    Nat.shiftLeft_xor_distrib]
  simp only [crcDividend, Nat.xor_assoc, Nat.xor_left_comm]

theorem crc32Acc_xor {n : Nat} (d d' : Word32) (s s' : BitVec n) :
    crc32Acc n (d ^^^ d') (s ^^^ s') = crc32Acc n d s ^^^ crc32Acc n d' s' := by
  refine eq_of_bitReflect_toNat_eq ?_
  rw [bitReflect_xor, BitVec.toNat_xor]
  simp only [bitReflect_crc32Acc_toNat]
  rw [crcDividend_xor, mod2_xor polynomial_ne_zero]

/-- An initial value and a datum that leave 0 may be added to any others (R137). -/
theorem crc32Acc_xor_of_eq_zero {n : Nat} {d' : Word32} {s' : BitVec n} (h : crc32Acc n d' s' = 0) (d : Word32)
    (s : BitVec n) : crc32Acc n d s = crc32Acc n (d ^^^ d') (s ^^^ s') := by
  rw [crc32Acc_xor, h]
  exact BitVec.xor_zero.symm

theorem crc32Acc_zero_zero (n : Nat) : crc32Acc n 0 0 = 0 := by
  have h := crc32Acc_xor (n := n) 0 0 0 0
  rwa [BitVec.xor_self, BitVec.xor_self, BitVec.xor_self] at h

/-- Settles O13: `crc32Acc_eq` with the shifts written as products; the zero case is linearity's. -/
theorem crc32AccIsTheReflectedRemainder : Obligations.Crc32AccIsTheReflectedRemainder := by
  refine ⟨fun n d s => ?_, crc32Acc_zero_zero⟩
  rw [crc32Acc_eq, crcDividend, Nat.shiftLeft_eq, Nat.shiftLeft_eq, polynomial]

/-- Settles O16: reflection, the shifts and the remainder are all linear. -/
theorem crc32AccIsLinear : Obligations.Crc32AccIsLinear := by
  refine ⟨fun n => crc32Acc_xor, fun n d s => ?_⟩
  have h := crc32Acc_xor d 0 0 s
  rwa [show d ^^^ 0 = d from BitVec.xor_zero, show 0 ^^^ s = s from BitVec.zero_xor] at h

/-- R136: the dividend of both parts is that of the low part shifted, plus the high part, and the remainder of the low part
may stand for its dividend. -/
theorem crc32Acc_add {a b : Nat} (d : Word32) (s : BitVec (a + b)) :
    crc32Acc (a + b) d s = crc32Acc b (crc32Acc a d (s.extractLsb' 0 a)) (s.extractLsb' a b) := by
  have hdividend : crcDividend (a + b) d s =
      (bitReflect (s.extractLsb' a b)).toNat <<< 32 ^^^ crcDividend a d (s.extractLsb' 0 a) <<< b := by
    rw [crcDividend, bitReflect_toNat_add, crcDividend, Nat.shiftLeft_xor_distrib, Nat.shiftLeft_xor_distrib,
      ← Nat.shiftLeft_add, ← Nat.shiftLeft_add, ← Nat.shiftLeft_add, Nat.add_comm b 32, Nat.xor_right_comm,
      Nat.xor_comm]
  refine eq_of_bitReflect_toNat_eq ?_
  simp only [bitReflect_crc32Acc_toNat]
  conv_rhs => rw [crcDividend, bitReflect_crc32Acc_toNat]
  rw [hdividend, mod2_xor polynomial_ne_zero, mod2_xor polynomial_ne_zero, mod2_mod2_shiftLeft polynomial_ne_zero]

/-- Settles O15, which is `crc32Acc_add`. -/
theorem accumulatingInPartsComposes : Obligations.AccumulatingInPartsComposes := fun _ _ => crc32Acc_add

/-! ### The initial value and the datum (R138, R139) -/

/-- The low bits of the initial value fold into the datum, the others are shifted down (R138, R139). -/
theorem crc32Acc_eq_shift_xor {n : Nat} (hn : n ≤ 32) (d : Word32) (s : BitVec n) :
    crc32Acc n d s = d >>> n ^^^ crc32Acc n 0 (d.extractLsb' 0 n ^^^ s) := by
  rw [← crc32Acc_low_bits hn, ← crc32Acc_xor, ← BitVec.xor_assoc, BitVec.xor_self, BitVec.zero_xor]
  exact congrArg (crc32Acc n · s) BitVec.xor_zero.symm

theorem extractLsb'_setWidth_self {n m : Nat} (h : n ≤ m) (v : BitVec n) : (v.setWidth m).extractLsb' 0 n = v := by
  rw [BitVec.extractLsb'_setWidth_of_le (by omega), BitVec.extractLsb'_eq_self]

/-- A datum equal to the initial value leaves 0, however many zero bits follow it (R138). -/
theorem crc32Acc_datum_setWidth (d : Word32) (b : Nat) : crc32Acc (32 + b) d (d.setWidth (32 + b)) = 0 := by
  have hhigh : (d.setWidth (32 + b)).extractLsb' 32 b = 0 := by
    refine BitVec.eq_of_getLsbD_eq fun i hi => ?_
    simp [BitVec.getLsbD_setWidth]
  rw [crc32Acc_add, extractLsb'_setWidth_self (by omega), hhigh, crc32Acc_self, crc32Acc_zero_zero]

/-- An initial value that holds the datum and nothing above it leaves 0 (R138). -/
theorem crc32Acc_initial_setWidth {n : Nat} (hn : n ≤ 32) (s : BitVec n) : crc32Acc n (s.setWidth 32) s = 0 := by
  have hgone : s.setWidth 32 >>> n = 0 := by
    refine BitVec.eq_of_getLsbD_eq fun i hi => ?_
    simp [BitVec.getLsbD_setWidth]
  have h := crc32Acc_low_bits hn (s.setWidth 32)
  rwa [extractLsb'_setWidth_self hn, hgone] at h

/-- From 32 bits of datum on, the whole initial value folds into it (R138). -/
theorem crc32Acc_fold (b : Nat) (d : Word32) (s : BitVec (32 + b)) :
    crc32Acc (32 + b) d s = crc32Acc (32 + b) 0 (s ^^^ d.setWidth (32 + b)) := by
  have h := crc32Acc_xor_of_eq_zero (crc32Acc_datum_setWidth d b) d s
  rwa [BitVec.xor_self] at h

/-- Settles O17: up to 32 bits the datum's contribution is cancelled by `crc32Acc_initial_setWidth`; from 32 bits on the
initial value's is moved by `crc32Acc_fold`. -/
theorem initialValueFoldsIntoTheDatum : Obligations.InitialValueFoldsIntoTheDatum := by
  refine ⟨fun n d s hn => ?_, fun d s => ?_, crc32Acc_fold 32, crc32Acc_self⟩
  · have h := crc32Acc_xor_of_eq_zero (crc32Acc_initial_setWidth hn s) d s
    rwa [BitVec.xor_self] at h
  · have h := crc32Acc_fold 0 d s
    rwa [BitVec.setWidth_eq, BitVec.xor_comm] at h

/-- Settles O18: `crc32Acc_eq_shift_xor` at 8 bits. -/
theorem tableFormOfAByte : Obligations.TableFormOfAByte := by
  intro d s
  rw [BitVec.extractLsb'_xor, extractLsb'_setWidth_self (by decide)]
  exact crc32Acc_eq_shift_xor (by decide) d s

/-! ### The bit-serial form (R135, R140, R141) -/

/-- A round of the bit-serial form accumulates one bit. -/
theorem crc32Acc_one (c : Word32) (s : BitVec 1) : crc32Acc 1 c s = serialRound c (s.getLsbD 0) := by
  have hbit : ∀ x : BitVec 1, crc32Acc 1 0 x = if x.getLsbD 0 then reflectedPolynomial else 0 := by decide +kernel
  rw [crc32Acc_eq_shift_xor (by decide), hbit, serialRound]
  simp only [BitVec.getLsbD_xor, BitVec.getLsbD_extractLsb', Nat.zero_add, Nat.lt_one_iff, decide_true, Bool.true_and]
  split
  · rfl
  · exact BitVec.xor_zero

/-- The last round takes the top bit. -/
theorem crc32Serial_succ {n : Nat} (d : Word32) (s : BitVec (n + 1)) :
    crc32Serial (n + 1) d s = serialRound (crc32Serial n d (s.extractLsb' 0 n)) (s.getLsbD n) := by
  rw [crc32Serial, List.range_succ, List.foldl_append, crc32Serial]
  refine congrArg (serialRound · _) (List.foldl_ext _ _ d fun c i hi => ?_)
  rw [BitVec.getLsbD_extractLsb', decide_eq_true (List.mem_range.1 hi), Bool.true_and, Nat.zero_add]

theorem crc32Acc_zero_width (d : Word32) (s : BitVec 0) : crc32Acc 0 d s = d := by
  have h := crc32Acc_low_bits (Nat.zero_le 32) d
  rwa [BitVec.ushiftRight_zero, Subsingleton.elim (d.extractLsb' 0 0) s] at h

/-- R135, by induction on the width: the top bit is a part of its own (R136), accumulated by one round. -/
theorem crc32Acc_eq_crc32Serial (n : Nat) (d : Word32) (s : BitVec n) : crc32Acc n d s = crc32Serial n d s := by
  induction n with
  | zero => exact crc32Acc_zero_width d s
  | succ n ih =>
    rw [crc32Acc_add, crc32Acc_one, ih, crc32Serial_succ, BitVec.getLsbD_extractLsb']
    rfl

/-- Settles O14, which is `crc32Acc_eq_crc32Serial`. -/
theorem bitSerialFormComputesCrc32Acc : Obligations.BitSerialFormComputesCrc32Acc := crc32Acc_eq_crc32Serial

/-- The top bit after a round says whether the polynomial was added. -/
theorem serialRound_getLsbD_top (c : Word32) (b : Bool) : (serialRound c b).getLsbD 31 = (c.getLsbD 0 ^^ b) := by
  have hshift : (c >>> 1).getLsbD 31 = false := by
    rw [BitVec.getLsbD_ushiftRight, BitVec.getLsbD_of_ge c _ (by decide)]
  have htop : reflectedPolynomial.getLsbD 31 = true := by decide
  rw [serialRound]
  split
  · next h => rw [BitVec.getLsbD_xor, hshift, htop, h]; rfl
  · next h => rw [hshift, Bool.eq_false_iff.2 h]

theorem serialUnround_serialRound (c : Word32) (b : Bool) : serialUnround (serialRound c b) b = c := by
  have hshift : (if (c.getLsbD 0 ^^ b) then serialRound c b ^^^ reflectedPolynomial else serialRound c b) = c >>> 1 := by
    rw [serialRound]
    split
    · rw [BitVec.xor_assoc, BitVec.xor_self, BitVec.xor_zero]
    · rfl
  rw [serialUnround, serialRound_getLsbD_top, hshift, Bool.xor_assoc, Bool.xor_self, Bool.xor_false]
  refine BitVec.eq_of_getLsbD_eq fun i hi => ?_
  cases i with
  | zero => simp
  | succ i => simp [hi, Nat.add_comm 1 i]

/-- Steps undone from the last to the first give the start back. -/
theorem foldr_foldl_cancel {α β : Type} {f : β → α → β} {g : α → β → β} (h : ∀ b a, g a (f b a) = b) :
    ∀ (xs : List α) (b : β), xs.foldr g (xs.foldl f b) = b
  | [], _ => rfl
  | x :: xs, b => by rw [List.foldl_cons, List.foldr_cons, foldr_foldl_cancel h xs, h]

theorem crc32Undo_crc32Acc {n : Nat} (d : Word32) (s : BitVec n) : crc32Undo n (crc32Acc n d s) s = d := by
  rw [crc32Acc_eq_crc32Serial]
  exact foldr_foldl_cancel (fun c i => serialUnround_serialRound c (s.getLsbD i)) (List.range n) d

/-- Settles O19: each round is undone by `serialUnround`, and a map of a finite type to itself with a left inverse is a
bijection. -/
theorem initialValueIsRecoverable : Obligations.InitialValueIsRecoverable := by
  refine ⟨fun n s => Finite.injective_iff_bijective.1 ?_, fun n => crc32Undo_crc32Acc⟩
  have hinv : Function.LeftInverse (crc32Undo n · s) (crc32Acc n · s) := fun d => crc32Undo_crc32Acc d s
  exact hinv.injective

/-- Settles O20: the nine bytes accumulated one after the other. -/
theorem checkValueOfNineBytes : Obligations.CheckValueOfNineBytes := by
  unfold Obligations.CheckValueOfNineBytes
  decide +kernel

end Sys2Proof.Machine
end

section
/-! Proofs for 41_crc32_instructions.md. First the rows that complete (R150 to R155) and the frame they share (R158);
then the privilege level, which changes the code of a page fault and no more (R162, R178). -/

namespace Sys2Proof.Machine

/-! ### Completion (R150 to R155) -/

/-- In every mode an instruction whose memory source can be read completes with the accumulated value (R156). -/
theorem exec_of_memRead {i : Instr} {s : State} {o : MemOperand} {n v : Nat} (ho : i.src = .mem o)
    (hn : i.form.srcBytes = n) (hw : i.wellFormed s.mode = true) (hs : s.sse42 = true) (hl : i.lock = false)
    (hv : s.memRead (operandSegment o) (operandEa i o s) n = .ok v) :
    exec i s = .next (s.after i.form i.dst i.src
      (write32 s.mode (s.r64 i.dst) (crc32Acc i.form.srcBits (s.r32 i.dst) (BitVec.ofNat i.form.srcBits v)))) := by
  refine exec_of_source hw hs hl ?_
  rw [operandEa, hl, ← hn, Form.srcBytes] at hv
  rw [ho, State.source_mem, ← ho, hv, Access.ok_bind]

/-- Settles O36: `r8` without a REX byte is the view of the row, and one byte of memory its width. -/
theorem completesR32Rm8 : Obligations.CompletesR32Rm8 := by
  have hn : Form.srcBytes .r32rm8 = 1 := by decide
  exact fun s dst hs =>
    ⟨fun r hw => exec_of_source (i := .crc32R32Rm8 false dst (.reg r)) hw hs rfl rfl,
      fun o v hw hv => exec_of_memRead rfl hn hw hs rfl hv⟩

/-- Settles O38: `r16` is the view of the row, and two bytes of memory its width. -/
theorem completesR32Rm16 : Obligations.CompletesR32Rm16 := by
  have hn : Form.srcBytes .r32rm16 = 2 := by decide
  exact fun s dst hs =>
    ⟨fun r hw => exec_of_source (i := .crc32R32Rm16 false dst (.reg r)) hw hs rfl rfl,
      fun o v hw hv => exec_of_memRead rfl hn hw hs rfl hv⟩

/-- Settles O39: `r32` is the view of the row, and four bytes of memory its width. -/
theorem completesR32Rm32 : Obligations.CompletesR32Rm32 := by
  have hn : Form.srcBytes .r32rm32 = 4 := by decide
  exact fun s dst hs =>
    ⟨fun r hw => exec_of_source (i := .crc32R32Rm32 false dst (.reg r)) hw hs rfl rfl,
      fun o v hw hv => exec_of_memRead rfl hn hw hs rfl hv⟩

/-- Settles O37: with a REX byte `r8` is the low byte of every register, and one byte of memory is the row's width. -/
theorem completesR32Rm8Rex : Obligations.CompletesR32Rm8Rex := by
  have hn : Form.srcBytes .r32rm8Rex = 1 := by decide
  exact fun s dst hm hs =>
    ⟨fun r => exec_rex_reg hm hs rfl rfl rfl, fun o v hw hv => exec_mode64_mem hm hs rfl rfl hn hw hv⟩

/-- Settles O40: the row reads what the r32, r/m8 row with a REX byte reads, and its 64-bit result is the zero-extended
accumulated value. -/
theorem completesR64Rm8 : Obligations.CompletesR64Rm8 := by
  have hn : Form.srcBytes .r64rm8 = 1 := by decide
  exact fun s dst hm hs =>
    ⟨fun r => exec_rex_reg hm hs rfl rfl rfl, fun o v hw hv => exec_mode64_mem hm hs rfl rfl hn hw hv⟩

/-- Settles O41: the whole register is the view of the row, and eight bytes of memory its width. -/
theorem completesR64Rm64 : Obligations.CompletesR64Rm64 := by
  have hn : Form.srcBytes .r64rm64 = 8 := by decide
  exact fun s dst hm hs =>
    ⟨fun r => exec_rex_reg hm hs rfl rfl rfl, fun o v hw hv => exec_mode64_mem hm hs rfl rfl hn hw hv⟩

/-! ### The frame (R158) -/

/-- Setting or clearing a status flag keeps AC (R27). -/
theorem writeFlag_getLsbD_ac {b : FlagBit} (hb : b ≠ .ac) (f : Word64) (v : Bool) :
    (if v then f ||| (1 : Word64) <<< b.pos else f &&& ~~~((1 : Word64) <<< b.pos)).getLsbD 18 = f.getLsbD 18 := by
  have hmask : ((1 : Word64) <<< b.pos).getLsbD 18 = false := by
    cases b with
    | ac => exact absurd rfl hb
    | _ => decide
  cases v with
  | true => simp only [if_true, BitVec.getLsbD_or, hmask, Bool.or_false]
  | false =>
    simp only [Bool.false_eq_true, if_false, BitVec.getLsbD_and, BitVec.getLsbD_not, hmask, Bool.not_false,
      Bool.and_true, Nat.reduceLT, decide_true]

/-- Settles O45: a completed execution is a 32-bit write and an advance of pc, and of RFLAGS it reads AC alone. -/
theorem frameOfEveryForm : Obligations.FrameOfEveryForm := by
  refine ⟨fun i s t h => ?_, fun i s b v hb => exec_rflags i (writeFlag_getLsbD_ac hb s.rflags v)⟩
  obtain ⟨-, -, v, rfl⟩ := exec_next_w32 h
  exact ⟨fun r hr => s.regs.get_set_of_ne _ hr, rfl, fun _ => rfl, rfl, rfl, rfl⟩

/-! ### The privilege level (R162, R178) -/

/-- An exception carried over to a privilege level: a page fault gets the not-present code of that level (R178). -/
def Fault.atLevel (c : BitVec 2) : Fault → Fault
  | .pf _ a => .pf (if c = 3 then 4 else 0) a
  | .ud => .ud
  | .ss0 => .ss0
  | .gp0 => .gp0
  | .ac0 => .ac0

/-- What an access gives, its exception carried over to a privilege level. -/
def Access.atLevel {α : Type} (c : BitVec 2) : Access α → Access α
  | .ok v => .ok v
  | .fault f => .fault (f.atLevel c)
  | .refuse r => .refuse r

theorem atLevel_fault (c : BitVec 2) (f : Fault) : atLevel c (.fault f) = .fault (f.atLevel c) := by
  cases f <;> rfl

/-- The segment, bound or canonical check raises the same exception at every level. -/
theorem segmentFault_atLevel (c : BitVec 2) (g : Seg) : (segmentFault g).atLevel c = segmentFault g := by
  unfold segmentFault
  split <;> rfl

section Level
variable (c : BitVec 2)

theorem Access.bind_atLevel {α β : Type} (x : Access α) (k : α → Access β) :
    (x.bind k).atLevel c = (x.atLevel c).bind fun v => (k v).atLevel c := by
  cases x <;> rfl

variable {s : State} {g : Seg} {ea : Word64} {n : Nat}

/-- The first check of a read does not look at the level (R60, R61). -/
theorem State.linear_atLevel : State.linear { s with cpl := c } g ea n = (s.linear g ea n).atLevel c := by
  have hlevel : State.linear { s with cpl := c } g ea n = s.linear g ea n := rfl
  rw [hlevel]
  cases h : s.linear g ea n with
  | fault f => rw [State.linear_fault h, Access.atLevel, segmentFault_atLevel]
  | ok la | refuse r => rfl

/-- The alignment check needs ALIGN_CHECK and level 3 (R54, R177), so with one of the two missing at both levels it
never fails. -/
theorem State.misaligned_level (hal : s.alignCheck = false ∨ s.cpl ≠ 3 ∧ c ≠ 3) (la : Word64) :
    State.misaligned { s with cpl := c } la n = s.misaligned la n := by
  have hac : State.alignCheck { s with cpl := c } = s.alignCheck := rfl
  rw [State.misaligned, State.misaligned, hac]
  obtain h | ⟨hs, hc⟩ := hal
  · simp only [h, Bool.false_and]
  · simp only [beq_false_of_ne hs, beq_false_of_ne hc]

section NoTable
variable (hp : ∀ es, s.paging ≠ .table es)
include hp

/-- Without a page table only the code of a page fault depends on the level (R62, R178). -/
theorem State.translate_atLevel (la : Word64) :
    State.translate { s with cpl := c } la = (s.translate la).atLevel c := by
  have hpaging : s.paging = .identity ∨ s.paging = .admitted := by
    cases h : s.paging with
    | table es => exact absurd h (hp es)
    | identity => exact .inl rfl
    | admitted => exact .inr rfl
  obtain h | h := hpaging
  · rw [State.translate_of_identity h, State.translate_of_identity (s := { s with cpl := c }) h]
    rfl
  · rw [State.translate_of_admitted h, State.translate_of_admitted (s := { s with cpl := c }) h,
      pageFaultCode_notPresent]
    split <;> rfl

theorem State.physical_atLevel (la : Word64) :
    State.physical { s with cpl := c } la = (s.physical la).atLevel c := by
  by_cases hm : s.mode = .real
  · rw [State.physical_of_real hm, State.physical_of_real (s := { s with cpl := c }) hm]
    rfl
  · rw [State.physical_of_ne_real hm, State.physical_of_ne_real (s := { s with cpl := c }) hm,
      State.translate_atLevel c hp]

theorem State.physicals_atLevel (las : List Word64) :
    State.physicals { s with cpl := c } las = (s.physicals las).atLevel c := by
  induction las with
  | nil => rfl
  | cons la las ih =>
    simp only [State.physicals, Access.bind_atLevel, State.physical_atLevel c hp, ih]
    rfl

variable (hal : s.alignCheck = false ∨ s.cpl ≠ 3 ∧ c ≠ 3)
include hal

theorem State.readLinear_atLevel (la : Word64) :
    State.readLinear { s with cpl := c } la n = (s.readLinear la n).atLevel c := by
  rw [State.readLinear, State.readLinear, Access.bind_atLevel, State.physicals_atLevel c hp,
    State.misaligned_level c hal]
  refine congrArg _ (funext fun ps => ?_)
  split
  · rfl
  · cases memGets s.mem ps <;> rfl

theorem State.memRead_atLevel : State.memRead { s with cpl := c } g ea n = (s.memRead g ea n).atLevel c := by
  simp only [State.memRead, Access.bind_atLevel, State.linear_atLevel, State.readLinear_atLevel c hp hal]

/-- The source operand of an instruction at another level: the same value, or the same exception but for its code. -/
theorem State.source_atLevel (i : Instr) :
    State.source { s with cpl := c } i.form.srcBits (State.view { s with cpl := c } i.form)
        (State.nextPc { s with cpl := c } i.form i.lock i.src) i.src =
      (s.source i.form.srcBits (s.view i.form) (s.nextPc i.form i.lock i.src) i.src).atLevel c := by
  cases i.src with
  | reg r => cases i.form <;> rfl
  | mem o =>
    rw [State.source_mem, State.source_mem, State.memRead_atLevel c hp hal, Access.bind_atLevel]
    rfl

/-- The frame and the writes of an execution do not look at the level, so its outcome follows its source operand's. -/
theorem exec_atLevel (i : Instr) : exec i { s with cpl := c } = atLevel c (exec i s) := by
  simp only [exec_eq, runForm, State.source_atLevel c hp hal]
  split
  · split
    · cases s.source i.form.srcBits (s.view i.form) (s.nextPc i.form i.lock i.src) i.src with
      | fault f => exact (atLevel_fault c f).symm
      | ok v | refuse r => rfl
    · rfl
  · rfl

end NoTable
end Level

/-- Settles O49, which is `exec_atLevel`: only a read looks at the level, in its alignment check and in the code of
its page faults. -/
theorem privilegeLevelChangesOnlyPageFaultCodes : Obligations.PrivilegeLevelChangesOnlyPageFaultCodes :=
  fun i _ c hal hp => exec_atLevel c hp hal i

end Sys2Proof.Machine
end

section
/-! Proofs for 60_exceptions.md: everything an execution can raise, by its source operand, and what a LOCK prefix is
among the bytes of an instruction (R170 to R173). -/

namespace Sys2Proof

@[simp] theorem Instr.lock_instr (f : Form) (lock : Bool) (dst : Reg) (src : Source) :
    (f.instr lock dst src).lock = lock := by cases f <;> rfl

/-- The operands add no LOCK prefix to the legacy bytes and lose none (R97). -/
theorem lock_of_readOperands {c : CodeContext} {p : Legacy} {rex : Option Rex} {f : Form} {i : Instr}
    {bs tail : List Byte} (h : readOperands c p rex f bs = .ok (i, tail)) : i.lock = p.lock := by
  cases bs with
  | nil => cases h
  | cons b bs =>
    obtain ⟨src, -, rfl⟩ := readOperands_cons_eq_ok h
    exact Instr.lock_instr _ _ _ _

end Sys2Proof

namespace Sys2Proof.Machine

/-- A source operand raises what the read of its memory raises; a register raises nothing (R172). -/
theorem State.source_eq_fault {s : State} {n : Nat} {view : Reg → BitVec n} {next : Word64} {src : Source} {f : Fault} :
    s.source n view next src = .fault f ↔
      ∃ o, src = .mem o ∧ s.memRead (operandSegment o) (s.ea next o) (n / 8) = .fault f := by
  cases src with
  | reg r => simp
  | mem o => simp [Access.bind_eq_fault]

/-- All an execution can raise: `#UD` for one of its two causes, or what the read of its memory source raises (R170). -/
theorem exec_eq_fault {i : Instr} {s : State} {f : Fault} :
    exec i s = .fault f ↔
      i.wellFormed s.mode = true ∧
        ((s.sse42 = false ∨ i.lock = true) ∧ f = .ud ∨
          s.sse42 = true ∧ i.lock = false ∧
            ∃ o, i.src = .mem o ∧ s.memRead (operandSegment o) (operandEa i o s) i.form.srcBytes = .fault f) := by
  rw [exec_eq, runForm_eq_fault]
  simp only [Access.bind_eq_fault, reduceCtorEq, and_false, exists_false, or_false, State.source_eq_fault]
  rfl

theorem segmentFault_cases (g : Seg) : segmentFault g = .gp0 ∨ segmentFault g = .ss0 := by
  unfold segmentFault
  split
  · exact .inr rfl
  · exact .inl rfl

/-- All a read can raise: `#GP(0)` or `#SS(0)`, and outside real-address mode a page fault or `#AC(0)` (R172, R173). -/
theorem memRead_fault_cases {s : State} {g : Seg} {ea : Word64} {n : Nat} {f : Fault}
    (h : s.memRead g ea n = .fault f) :
    f = .gp0 ∨ f = .ss0 ∨ s.mode ≠ .real ∧ ((∃ code a, f = .pf code a) ∨ f = .ac0) := by
  obtain hlin | ⟨la, -, hphys | ⟨ps, -, hal, rfl⟩⟩ := memRead_eq_fault.1 h
  · rw [State.linear_fault hlin]
    exact (segmentFault_cases g).imp_right .inl
  · have hm : s.mode ≠ .real := by
      intro hm
      obtain ⟨-, x, -, -, -, hx⟩ := physicals_eq_fault.1 hphys
      rw [State.physical_of_real hm] at hx
      cases hx
    exact .inr (.inr ⟨hm, .inl (State.physicals_fault hphys)⟩)
  · obtain ⟨-, -, -, hm, -⟩ := State.misaligned_iff.1 hal
    exact .inr (.inr ⟨hm, .inr rfl⟩)

/-- No read raises `#UD` (R172). -/
theorem memRead_ne_ud (s : State) (g : Seg) (ea : Word64) (n : Nat) : s.memRead g ea n ≠ .fault .ud := by
  intro h
  simpa using memRead_fault_cases h

/-- Settles O29: no read raises `#UD`, which leaves the two causes of `exec_eq_fault`, and the loop over the legacy bytes
sets the LOCK prefix at F0 (`Legacy.Holds`). -/
theorem invalidOpcodeExactly : Obligations.InvalidOpcodeExactly := by
  refine ⟨fun i s hw => ?_, fun c ps rest tail i hps hrest h => ?_⟩
  · simp only [exec_eq_fault, hw, memRead_ne_ud, and_false, exists_false, or_false, and_true, true_and]
  · obtain ⟨p, -, bs, f, hp, -, -, -, hargs⟩ := decode_append_eq_ok hps hrest h
    rw [lock_of_readOperands hargs]
    exact hp.lock

/-- Settles O34: of what a read can raise, `memRead_fault_cases` leaves two exceptions to real-address mode. -/
theorem realAddressModeExceptions : Obligations.RealAddressModeExceptions := by
  intro i s f hm h
  obtain ⟨-, ⟨-, hud⟩ | ⟨-, -, o, -, hread⟩⟩ := exec_eq_fault.1 h
  · exact .inl hud
  · obtain hgp | hss | ⟨hne, -⟩ := memRead_fault_cases hread
    · exact .inr (.inl hgp)
    · exact .inr (.inr hss)
    · exact absurd hm hne

/-- Settles O35: every other exception of `exec_eq_fault` is that of a memory source. -/
theorem registerSourceRaisesOnlyInvalidOpcode : Obligations.RegisterSourceRaisesOnlyInvalidOpcode := by
  intro i s r f hr h
  obtain ⟨-, ⟨-, hud⟩ | ⟨-, -, o, ho, -⟩⟩ := exec_eq_fault.1 h
  · exact hud
  · rw [hr] at ho
    cases ho

end Sys2Proof.Machine
end

section
/-! Proofs for 70_reset_and_hazards.md: the bound on the steps of a run (R213). The text that is left from pc on is the
measure: each completed step takes its instruction's bytes off the front. -/

namespace Sys2Proof.Machine

/-- R55, R100: a completed step takes at least five bytes off the front of the text that is left. -/
theorem text_of_step {s t : State} (h : step s = .next t) :
    ∃ used : List Byte, s.text = used ++ t.text ∧ 5 ≤ used.length := by
  obtain ⟨i, hf, -, ht, hpc, hlen, -⟩ := stepChangesOnlyTheDestinationAndPc s t h
  obtain ⟨-, -, -, hne, ⟨rest, hd⟩, -⟩ := fetch_eq_ok.1 hf
  obtain ⟨-, used, happ, hused⟩ := decodedInstructionsHaveAnEncoding _ _ _ _ hd
  have hle : s.codeBase.toNat ≤ s.pc.toNat := by rw [ne_eq, State.text_eq_nil_iff] at hne; omega
  have hbase : t.codeBase = s.codeBase := by rw [ht]
  have hcode : t.code = s.code := by rw [ht]
  have hrest : t.text = rest := calc
    t.text = s.code.drop (t.pc.toNat - s.codeBase.toNat) := by rw [State.text_of_le (by rw [hbase]; omega), hcode, hbase]
    _ = s.text.drop used.length := by rw [State.text_of_le hle, List.drop_drop]; congr 1; omega
    _ = rest := by rw [happ, List.drop_left]
  exact ⟨used, hrest ▸ happ, hused ▸ hlen⟩

/-- A run of `k + 1` completed steps is a completed step and a run of `k` more. -/
theorem run_succ_eq_next {M : Host.Core} {s u : M.State} {k : Nat} :
    M.run (k + 1) s = .next u ↔ ∃ t, M.step s = .next t ∧ M.run k t = .next u := by
  rw [Host.Core.run]
  cases M.step s <;> simp

/-- R213: `k` completed steps take at least `5 * k` bytes of the text that is left. -/
theorem five_mul_le_text_of_run {k : Nat} {s t : State} (h : Host.Core.run Sys2Proof.core k s = .next t) :
    5 * k ≤ s.text.length := by
  induction k generalizing s with
  | zero => omega
  | succ k ih =>
    obtain ⟨u, hstep, hrun⟩ := run_succ_eq_next.1 h
    obtain ⟨used, happ, hused⟩ := text_of_step hstep
    have hrest := ih hrun
    rw [happ, List.length_append]
    omega

theorem State.text_length_le (s : State) : s.text.length ≤ s.code.length := by
  unfold State.text
  split
  · exact Nat.zero_le _
  · rw [List.length_drop]; omega

/-- R213: no run completes more steps than a fifth of the text's length. -/
theorem le_of_run {k : Nat} {s t : State} (h : Host.Core.run Sys2Proof.core k s = .next t) : k ≤ s.code.length / 5 := by
  have htaken := five_mul_le_text_of_run h
  have htext := s.text_length_le
  omega

/-- A bounded run that reports no outcome has completed all the steps it was given. -/
theorem run_of_runFor_running {k : Nat} {s : State} (h : (runFor k s).1 = .running) :
    Host.Core.run Sys2Proof.core k s = .next (runFor k s).2 := by
  induction k generalizing s with
  | zero => rfl
  | succ k ih =>
    rw [runFor] at h ⊢
    cases hstep : step s with
    | next t =>
      rw [hstep] at h
      cases hfin : t.isFinal <;> simp only [hfin, Bool.false_eq_true, if_true, if_false] at h ⊢
      · exact run_succ_eq_next.2 ⟨t, hstep, ih h⟩
      · cases h
    | fault f => rw [hstep] at h; cases h
    | refused r => rw [hstep] at h; cases h

/-- Settles O55: each completed step takes five bytes or more of the text; and an observation without an outcome would
come from a run of more completed steps than the text has bytes. -/
theorem runsEndWithinAFifthOfTheText : Obligations.RunsEndWithinAFifthOfTheText := by
  refine ⟨fun s t k hk h => ?bound, fun s h => ?outcome⟩
  case bound => exact absurd (le_of_run h) (Nat.not_le.2 hk)
  case outcome =>
    have hsteps : s.code.length + 1 ≤ s.code.length / 5 := le_of_run (run_of_runFor_running h)
    omega

end Sys2Proof.Machine
end
